-- ==== Sys2Proof/Word.lean ====
section
/-! DEFINITION. The word types of FSKCORE: the widths the spec fixes, and for the two widths that follow ADC_W the
widest a legal configuration has (2 ≤ ADC_W ≤ 15, R6). -/

namespace Sys2Proof

/-- The largest legal `ADC_W` (R6). -/
def adcMaxW : Nat := 15

/-- An entry of the sine ROM (R50), a PWM duty (R28). -/
abbrev Byte := BitVec 8

/-- Container of an `ADC_W`-bit value: the raw sample `adc_sample` (R70) and the register `LAST` (R21). log 4 -/
abbrev AdcWord := BitVec 15

/-- A filter accumulator, `ACC_W` = 32 bits (R22, D8). -/
abbrev AccWord := BitVec 32

/-- The bit-sync counter, `CNT_W` = 16 bits (R24, D14). -/
abbrev CntWord := BitVec 16

/-- The phase accumulator (R27). -/
abbrev PhaseWord := BitVec 16

/-- Container of an input word of `ADC_W + 4` bits (R70); the lines above bit `ADC_W + 3` do not exist. log 4 -/
abbrev InputWord := BitVec 19

end Sys2Proof
end

