-- ==== Sys2Proof/Machine/SineRom.lean ====
section
/-! DEFINITION. The sine ROM (20_memory.md): its default contents, and how the contents of a configuration are held.
The ROM is the block's whole address space (R56): 256 entries of 8 bits, read-only (R50). Contents are a list of
(index, entry) pairs in one canonical form; an index that is not listed reads as the default table of R51. log 9 -/

namespace Sys2Proof.Machine

/-- The literal table of R51, row by row. -/
def defaultSine : List Byte :=
  [128, 131, 134, 137, 140, 144, 147, 150, 153, 156, 159, 162, 165, 168, 171, 174] ++
  [177, 179, 182, 185, 188, 191, 193, 196, 199, 201, 204, 206, 209, 211, 213, 216] ++
  [218, 220, 222, 224, 226, 228, 230, 232, 234, 235, 237, 239, 240, 241, 243, 244] ++
  [245, 246, 248, 249, 250, 250, 251, 252, 253, 253, 254, 254, 254, 255, 255, 255] ++
  [255, 255, 255, 255, 254, 254, 254, 253, 253, 252, 251, 250, 250, 249, 248, 246] ++
  [245, 244, 243, 241, 240, 239, 237, 235, 234, 232, 230, 228, 226, 224, 222, 220] ++
  [218, 216, 213, 211, 209, 206, 204, 201, 199, 196, 193, 191, 188, 185, 182, 179] ++
  [177, 174, 171, 168, 165, 162, 159, 156, 153, 150, 147, 144, 140, 137, 134, 131] ++
  [128, 125, 122, 119, 116, 112, 109, 106, 103, 100, 97, 94, 91, 88, 85, 82] ++
  [79, 77, 74, 71, 68, 65, 63, 60, 57, 55, 52, 50, 47, 45, 43, 40] ++
  [38, 36, 34, 32, 30, 28, 26, 24, 22, 21, 19, 17, 16, 15, 13, 12] ++
  [11, 10, 8, 7, 6, 6, 5, 4, 3, 3, 2, 2, 2, 1, 1, 1] ++
  [1, 1, 1, 1, 2, 2, 2, 3, 3, 4, 5, 6, 6, 7, 8, 10] ++
  [11, 12, 13, 15, 16, 17, 19, 21, 22, 24, 26, 28, 30, 32, 34, 36] ++
  [38, 40, 43, 45, 47, 50, 52, 55, 57, 60, 63, 65, 68, 71, 74, 77] ++
  [79, 82, 85, 88, 91, 94, 97, 100, 103, 106, 109, 112, 116, 119, 122, 125]

theorem defaultSine_length : defaultSine.length = 256 := by decide +kernel

/-- ROM contents: the entries that differ from the table of R51, by rising index. -/
abbrev Memory := List Host.Cell

/-- What an index that is not listed reads as: the default table (R51). Every 8-bit index is in the table (R54). -/
def sineUnlisted (idx : BitVec 8) : Byte :=
  defaultSine[idx.toNat]'(by rw [defaultSine_length]; exact idx.isLt)

/-- The canonical form from index `lo` on: indices strictly rising and below 256, no entry equal to the table's. -/
def sineWfFrom (lo : Nat) : Memory → Bool
  | [] => true
  | (a, b) :: rest =>
    decide (lo ≤ a) && decide (a < 256) && decide (b ≠ sineUnlisted (BitVec.ofNat 8 a)) && sineWfFrom (a + 1) rest

/-- The canonical form of ROM contents: equal contents are equal lists. -/
def Memory.wf (m : Memory) : Bool := sineWfFrom 0 m

/-- `MemRead(idx, 1)`, also written `ROM(idx)`: one entry of the ROM (R12, R50, R55). -/
def romRead (m : Memory) (idx : BitVec 8) : Byte := (m.lookup idx.toNat).getD (sineUnlisted idx)

/-- Give the ROM the entry `b` at `idx`. The block itself has no such operation (R12, R61): the contents are fixed at
elaboration, before the first cycle (R6, R232), and this is how a configuration with another table is built. -/
def romProgram (idx : BitVec 8) (b : Byte) : Memory → Memory
  | [] => if b = sineUnlisted idx then [] else [(idx.toNat, b)]
  | (a, x) :: rest =>
    if a < idx.toNat then (a, x) :: romProgram idx b rest
    else if a = idx.toNat then (if b = sineUnlisted idx then rest else (idx.toNat, b) :: rest)
    else (if b = sineUnlisted idx then (a, x) :: rest else (idx.toNat, b) :: (a, x) :: rest)

/-- The entries of a table that differ from R51's, its first entry standing at index `first`. -/
def romOfTableFrom (first : Nat) : List Byte → Memory
  | [] => []
  | b :: rest =>
    if b = sineUnlisted (BitVec.ofNat 8 first) then romOfTableFrom (first + 1) rest
    else (first, b) :: romOfTableFrom (first + 1) rest

/-- ROM contents from a whole table of 256 entries (R6: `SINE` is a parameter). -/
def romOfTable (table : List Byte) : Memory := romOfTableFrom 0 (table.take 256)

end Sys2Proof.Machine
end

