-- ==== Sys2Proof/Config.lean ====
section
/-! DEFINITION. The configuration of FSKCORE (R6): the tuple of parameters fixed at elaboration, its default column,
the parameters R6 fixes, and the one free value of the model, the words the host drives. -/

namespace Sys2Proof

/-- The parameters of R6 that a configuration chooses. `F_SAMPLE` and `F_CARRIER` describe the host and no rule of the
block reads them (R6, R241): log 10. -/
structure Config where
  adcW          : Nat     -- ADC_W
  k0            : Nat     -- K0
  k1            : Nat     -- K1
  k2            : Nat     -- K2
  symbolLen     : Nat     -- SYMBOL_LEN
  bitCenter     : Nat     -- BIT_CENTER
  edgeLo        : Nat     -- EDGE_LO
  edgeHi        : Nat     -- EDGE_HI
  rxInvert      : Bool    -- RX_INVERT
  phaseIncMark  : Nat     -- PHASE_INC_MARK
  phaseIncSpace : Nat     -- PHASE_INC_SPACE
  sine          : Machine.Memory   -- SINE
deriving DecidableEq, Repr

/-- The default column of R6 (decisions D3, D7, D10, D11, D15, D16). -/
def Config.default : Config where
  adcW          := 10
  k0            := 1
  k1            := 2
  k2            := 1
  symbolLen     := 28
  bitCenter     := 14
  edgeLo        := 20
  edgeHi        := 36
  rxInvert      := false
  phaseIncMark  := 2333
  phaseIncSpace := 2123
  sine          := []

/-- `ADC_MID`, fixed to `2^(ADC_W-1)` (R6, R101). -/
def Config.adcMid (c : Config) : Nat := 2 ^ (c.adcW - 1)

/-- `ACC_W`, fixed (R6). -/
def accW : Nat := 32

/-- `CNT_W`, fixed (R6). -/
def cntW : Nat := 16

/-- `PWM_SHIFT`, fixed (R6, D17). -/
def pwmShift : Nat := 2

/-- FREE VALUE. The input word the host drives in the cycle of this number, where the model's schedule holds none:
the host may drive any word in any cycle (R70, R238, R242). log 3 -/
opaque hostWord : Nat → InputWord

end Sys2Proof
end

