-- ==== Sys2Proof/Syntax.lean ====
section
/-! DEFINITION. The operations of FSKCORE (R71) and the notation for sequences of them (R78, R79). -/

namespace Sys2Proof

/-- The five operations of the opcode table (R71, R72), with the operands of R73. -/
inductive Instr where
  | nop                                            -- NOP
  | sample (a : AdcWord)                           -- SAMPLE a
  | carrier (t : Bool)                             -- CARRIER t
  | sampleCarrier (a : AdcWord) (t : Bool)         -- SAMPLE_CARRIER a, t
  | reset                                          -- RESET
deriving DecidableEq, Repr

/-- A program in the notation of R78 and R79, line by line; each constructor holds the lines after it. -/
inductive Program where
  | done
  | line (i : Instr) (rest : Program)                         -- one operation of R78
  | nops (n : Nat) (rest : Program)                           -- NOP <n>
  | samples (as : List AdcWord) (rest : Program)              -- SAMPLES <a1>, ..., <ak>
  | carriers (t : Bool) (n : Nat) (rest : Program)            -- CARRIERS <t> × <n>
  | repeated (n : Nat) (body : Program) (rest : Program)      -- REPEAT <n> and its enclosed lines
deriving DecidableEq, Repr

end Sys2Proof
end

