-- ==== Sys2Proof/Decode.lean ====
section
/-! DEFINITION. From an input word to an operation and back (30_encoding.md). Decoding is total over the words of the
port (R71, R74); a number that is no word of the port is rejected by name. -/

namespace Sys2Proof

/-- `in[0]`, S (R70). -/
def sampleStrobe (w : Nat) : Bool := w.testBit 0

/-- `in[1]`, C (R70). -/
def carrierStrobe (w : Nat) : Bool := w.testBit 1

/-- `in[2]`, R (R70). -/
def rstField (w : Nat) : Bool := w.testBit 2

/-- `in[3]`, T (R70). -/
def txBitField (w : Nat) : Bool := w.testBit 3

/-- `in[ADC_W+3:4]`, A (R70). -/
def adcSampleField (adcW w : Nat) : AdcWord := BitVec.ofNat 15 (w / 2 ^ 4 % 2 ^ adcW)

/-- The operation an input word selects, by `{rst, carrier_strobe, sample_strobe}` (R71), with the operand fields that
operation reads (R72). Total: no word is reserved or illegal (R74). -/
def decodeWord (adcW w : Nat) : Instr :=
  match rstField w, carrierStrobe w, sampleStrobe w with
  | true,  _,     _     => .reset
  | false, false, false => .nop
  | false, false, true  => .sample (adcSampleField adcW w)
  | false, true,  false => .carrier (txBitField w)
  | false, true,  true  => .sampleCarrier (adcSampleField adcW w) (txBitField w)

/-- Why a number is no input word. -/
inductive DecodeError where
  /-- It has a bit above `ADC_W + 3`, where the port has no line (R70). log 11 -/
  | widerThanPort
deriving DecidableEq, Repr

/-- Decode any number: an input word of the port gives its operation, any other is rejected. log 11 -/
def decode (adcW w : Nat) : Except DecodeError Instr :=
  if w < 2 ^ (adcW + 4) then .ok (decodeWord adcW w) else .error .widerThanPort

/-- The input word of an operation, every ignored bit 0 (R72, R78). -/
def encode : Instr → Nat
  | .nop               => 0b000
  | .sample a          => a.toNat * 2 ^ 4 + 0b001
  | .carrier t         => t.toNat * 2 ^ 3 + 0b010
  | .sampleCarrier a t => a.toNat * 2 ^ 4 + t.toNat * 2 ^ 3 + 0b011
  | .reset             => 0b100

/-- The mnemonic of an operation, as the opcode table spells it (R72). -/
def Instr.mnemonic : Instr → String
  | .nop               => "NOP"
  | .sample _          => "SAMPLE"
  | .carrier _         => "CARRIER"
  | .sampleCarrier _ _ => "SAMPLE_CARRIER"
  | .reset             => "RESET"

/-- A row of the opcode map: a mnemonic, its match and its mask over the whole input word (R72). -/
structure OpcodeRow where
  mnemonic : String
  bits     : Nat
  mask     : Nat
deriving DecidableEq, Repr

/-- Whether a row selects a word (R72). -/
def OpcodeRow.selects (r : OpcodeRow) (w : Nat) : Bool := decide (w &&& r.mask = r.bits)

/-- The opcode map of R72. The same for every `ADC_W`. -/
def opcodeMap : List OpcodeRow :=
  [⟨"NOP",            0x0000, 0x0007⟩,
   ⟨"SAMPLE",         0x0001, 0x0007⟩,
   ⟨"CARRIER",        0x0002, 0x0007⟩,
   ⟨"SAMPLE_CARRIER", 0x0003, 0x0007⟩,
   ⟨"RESET",          0x0004, 0x0004⟩]

/-- What the decoder reads from a word of the opcode table, under the default configuration (R72: `ADC_W = 10`);
the bits above `nbits` are 0. -/
def decodeTableWord (nbits w : Nat) : Option Instr :=
  match decode Config.default.adcW (w % 2 ^ nbits) with
  | .ok i    => some i
  | .error _ => none

end Sys2Proof
end

