-- ==== Sys2Proof/Machine/Bits.lean ====
section
/-! DEFINITION. The primitives of the spec's pseudocode over integers of unbounded width (R9, R10). Storing an integer
in an N-bit register is `BitVec.ofInt N` or `BitVec.ofNat N`, reading a signed register `BitVec.toInt`, an unsigned one
`BitVec.toNat`. -/

namespace Sys2Proof.Machine

/-- `zext_N(v)`: the unsigned value of the low `N` bits of `v` (R10). -/
def zext (N : Nat) (v : Int) : Int := v % ((2 ^ N : Nat) : Int)

/-- `sext_N(v)`: the two's-complement value of the low `N` bits of `v` (R10). -/
def sext (N : Nat) (v : Int) : Int :=
  (v + ((2 ^ (N - 1) : Nat) : Int)) % ((2 ^ N : Nat) : Int) - ((2 ^ (N - 1) : Nat) : Int)

/-- `wrap_N(v)`: the name of `sext_N` where it reduces a signed sum (R10). -/
abbrev wrap (N : Nat) (v : Int) : Int := sext N v

/-- `asr(v, k) = floor(v / 2^k)`: division by a positive power of two, rounded toward minus infinity (R10). -/
def asr (v : Int) (k : Nat) : Int := v / ((2 ^ k : Nat) : Int)

/-- `lsr(v, k) = floor(v / 2^k)` for `v ≥ 0` (R10). -/
def lsr (v k : Nat) : Nat := v / 2 ^ k

/-- `v[hi:lo]` (R9). -/
def bitsOf (v hi lo : Nat) : Nat := v / 2 ^ lo % 2 ^ (hi + 1 - lo)

end Sys2Proof.Machine
end

