-- ==== Sys2Proof/Machine/State.lean ====
section
/-! DEFINITION. The state of FSKCORE as plain data (10_state.md R20), its output ports' shape (R76), the reasons a step
can stop, and the state after reset. -/

namespace Sys2Proof.Machine

/-- The three values of `SYNC` (R23). -/
inductive Sync where
  | idle            -- Idle
  | trackingMark    -- TrackingMark
  | trackingSpace   -- TrackingSpace
deriving DecidableEq, Repr

/-- The registers the RX datapath owns (R8, R20). -/
structure RxRegs where
  last : AdcWord   -- LAST, signed (R21)
  s0   : AccWord   -- S0, signed (R22)
  s1   : AccWord   -- S1, signed (R22)
  s2   : AccWord   -- S2, signed (R22)
  sync : Sync      -- SYNC (R23)
  cnt  : CntWord   -- CNT, signed (R24)
  rxb  : Bool      -- RXB (R25)
  tgl  : Bool      -- TGL (R26)
deriving DecidableEq, Repr

/-- The registers the TX datapath owns (R8, R20). -/
structure TxRegs where
  phase : PhaseWord   -- PHASE, unsigned (R27)
  pwm   : Byte        -- PWM, unsigned (R28)
deriving DecidableEq, Repr

/-- The block: its configuration, fixed (R6, R237; log 1), and its ten registers (R20); and the host's side of the
interface, the model's own fields: the input words it will drive, oldest first (log 2), and the number of the cycle,
to which the free input word is applied (log 3). -/
structure State where
  cfg    : Config
  rx     : RxRegs
  tx     : TxRegs
  inputs : List InputWord
  cycle  : Nat
deriving DecidableEq, Repr

/-- The output ports (R76). -/
structure Ports where
  rxBit     : Bool       -- rx_bit
  rxPulse   : Bool       -- rx_pulse
  pwmDuty   : Byte       -- pwm_duty
  syncState : BitVec 2   -- sync_state
deriving DecidableEq, Repr

/-- No fault exists: no operation raises an exception, and a model has no fault outcome (R200). -/
inductive Fault where
deriving DecidableEq, Repr

/-- Why a step is refused. -/
inductive Refusal where
  /-- An arm of `exec` for an instruction without a meaning. No arm raises it: every row has its meaning. Safe. -/
  | notModelled (mnemonic : String)
  /-- Every operation raises it, in a state whose configuration is not well-formed: such a configuration is no instance
  of FSKCORE (R7, R200, U5). Safe. log 5 -/
  | illFormedConfiguration
deriving DecidableEq, Repr

/-- The state RESET produces (R20, R35, R182, R231), under the default configuration (R6), nothing scheduled by the
host. log 2, log 6 -/
def State.reset : State where
  cfg    := Config.default
  rx     := { last := 0, s0 := 0, s1 := 0, s2 := 0, sync := .idle, cnt := 0, rxb := true, tgl := false }
  tx     := { phase := 0, pwm := 32 }
  inputs := []
  cycle  := 0

end Sys2Proof.Machine
end

