-- ==== Sys2Proof/Machine/Flags.lean ====
section
/-! DEFINITION. The conditions a SAMPLE operation tests. FSKCORE stores no flag (R30): each of these lives inside the one
operation that computes it. -/

namespace Sys2Proof.Machine

/-- `NEG = (F < 0)`: a filtered value of exactly 0 is not negative (R30, R105). -/
def negOf (F : Int) : Bool := decide (F < 0)

/-- `MISMATCH(SYNC, NEG)`: the sign disagrees with the tracked tone (R130, R135). In `Idle` no tone is tracked and
nothing asks. -/
def mismatch (sync : Sync) (neg : Bool) : Bool :=
  match sync with
  | .idle          => false
  | .trackingMark  => neg
  | .trackingSpace => !neg

/-- The bit a centre latch writes: `(if NEG then 0 else 1) XOR RX_INVERT` (R133). -/
def latchedBit (cfg : Config) (neg : Bool) : Bool := xor (!neg) cfg.rxInvert

end Sys2Proof.Machine
end

