-- ==== Sys2Proof/Machine/BitSync.lean ====
section
/-! DEFINITION. The bit-sync step every SAMPLE runs once (41_bit_sync.md, R130-R135). -/

namespace Sys2Proof.Machine

/-- `OTHER(SYNC)` (R130); only a tracking state is ever switched. -/
def otherTone : Sync → Sync
  | .idle          => .idle
  | .trackingMark  => .trackingSpace
  | .trackingSpace => .trackingMark

/-- `n = CNT + 1`, an integer (R132). -/
def nextCount (rx : RxRegs) : Int := rx.cnt.toInt + 1

/-- Store an integer in `CNT`. log 7 -/
def countWord (n : Int) : CntWord := BitVec.ofInt 16 n

/-- `RXB'` of a tracking step: latched at the bit centre, else kept (R133). -/
def nextRxb (cfg : Config) (neg : Bool) (rx : RxRegs) : Bool :=
  if nextCount rx = cfg.bitCenter then latchedBit cfg neg else rx.rxb

/-- The step in `TrackingMark` and `TrackingSpace`: centre latch, then wrap, else confirmed edge (R132-R135, R202). -/
def trackStep (cfg : Config) (neg : Bool) (rx : RxRegs) : RxRegs :=
  if nextCount rx > cfg.edgeHi then
    { rx with rxb := nextRxb cfg neg rx, cnt := countWord (nextCount rx - cfg.symbolLen) }
  else if nextCount rx > cfg.edgeLo ∧ mismatch rx.sync neg = true then
    { rx with rxb := nextRxb cfg neg rx, sync := otherTone rx.sync, cnt := 0 }
  else
    { rx with rxb := nextRxb cfg neg rx, cnt := countWord (nextCount rx) }

/-- The step in `Idle`: one negative filtered value locks (R131). -/
def idleStep (neg : Bool) (rx : RxRegs) : RxRegs :=
  if neg then { rx with sync := .trackingSpace, cnt := 0 } else rx

/-- `BITSYNC(NEG)` (R130). It writes `SYNC`, `CNT` and `RXB` only. -/
def bitSync (cfg : Config) (neg : Bool) (rx : RxRegs) : RxRegs :=
  match rx.sync with
  | .idle          => idleStep neg rx
  | .trackingMark  => trackStep cfg neg rx
  | .trackingSpace => trackStep cfg neg rx

end Sys2Proof.Machine
end

