-- ==== Sys2Proof/Machine/Operands.lean ====
section
/-! DEFINITION. The operands (R73) and the centring of the raw sample (R101). No operation has an immediate field (R73). -/

namespace Sys2Proof.Machine

/-- The sample operand `a = zext_ADC_W(in.adc_sample)`, in `[0, 2^ADC_W - 1]` (R73). log 8 -/
def sampleOperand (cfg : Config) (a : AdcWord) : Int := zext cfg.adcW a.toNat

/-- The centred sample `c = a - ADC_MID` (R101). -/
def centre (cfg : Config) (a : AdcWord) : Int := sampleOperand cfg a - cfg.adcMid

/-- The phase increment the bit operand selects (R161). -/
def phaseInc (cfg : Config) (t : Bool) : Nat := if t then cfg.phaseIncMark else cfg.phaseIncSpace

end Sys2Proof.Machine
end

