-- ==== Sys2Proof/WellFormed.lean ====
section
/-! DEFINITION. What is well-formed: a configuration (R6, R7), an operation's operands (R73, R78), a program (R78, R79). -/

namespace Sys2Proof

/-- The ranges of R6. -/
def Config.rangesOk (c : Config) : Bool :=
  decide (2 ≤ c.adcW) && decide (c.adcW ≤ adcMaxW) &&
  decide (c.k0 ≤ 31) && decide (c.k1 ≤ 31) && decide (c.k2 ≤ 31) &&
  decide (c.phaseIncMark ≤ 65535) && decide (c.phaseIncSpace ≤ 65535) && Machine.Memory.wf c.sine

/-- The bit-sync constants, R7 (a) to (d) in order. -/
def Config.bitSyncOk (c : Config) : Bool :=
  decide (1 ≤ c.bitCenter) && decide (c.bitCenter ≤ c.edgeLo) &&
  decide (c.edgeLo < c.edgeHi) && decide (c.edgeHi ≤ 2 ^ (cntW - 1) - 2) &&
  decide (1 ≤ c.symbolLen) && decide (c.symbolLen ≤ c.edgeHi + 1) &&
  decide (c.edgeHi + 1 - c.symbolLen < c.bitCenter)

/-- A well-formed configuration (R7). -/
def Config.wf (c : Config) : Bool := c.rangesOk && c.bitSyncOk

/-- A raw sample lies in `[0, 2^ADC_W - 1]` (R73); the bit operand is a bit. -/
def Instr.wf (adcW : Nat) : Instr → Bool
  | .nop               => true
  | .sample a          => decide (a.toNat < 2 ^ adcW)
  | .carrier _         => true
  | .sampleCarrier a _ => decide (a.toNat < 2 ^ adcW)
  | .reset             => true

/-- The lines of a program are well-formed: operands in range (R78), `NOP <n>` with `n ≥ 1`, at least one sample in
`SAMPLES` (R79). -/
def Program.wf (adcW : Nat) : Program → Bool
  | .done                 => true
  | .line i rest          => i.wf adcW && rest.wf adcW
  | .nops n rest          => decide (1 ≤ n) && rest.wf adcW
  | .samples as rest      => !as.isEmpty && as.all (fun a => decide (a.toNat < 2 ^ adcW)) && rest.wf adcW
  | .carriers _ _ rest    => rest.wf adcW
  | .repeated _ body rest => body.wf adcW && rest.wf adcW

end Sys2Proof
end

