-- ==== Sys2Proof/Machine/Ops.lean ====
section
/-! DEFINITION. The operations every meaning and the step share: the commit at the clock edge, and the host's side of a
cycle. FSKCORE takes no exception and returns from none (R13, R200, R203, R204), so there is no operation for either. -/

namespace Sys2Proof.Machine

/-- The end of a cycle that began in `s`: every write of the operation takes effect together (R11, R58), and the block
is an instance of FSKCORE only under a well-formed configuration (R7, R200). log 5 -/
def commit (s t : State) : Host.Outcome State Fault Refusal :=
  if s.cfg.wf then .next t else .refused .illFormedConfiguration

/-- The value of the `ADC_W + 4` lines of the input port when a word is driven on it (R70). log 4 -/
def portValue (cfg : Config) (w : InputWord) : Nat := w.toNat % 2 ^ (cfg.adcW + 4)

/-- The input word of this cycle (R70): the oldest scheduled one (log 2), a free value where none is (log 3). -/
def currentWord (s : State) : InputWord :=
  match s.inputs with
  | []     => hostWord s.cycle
  | w :: _ => w

/-- The host's side of the end of a cycle: the word of this cycle is gone, and is stored nowhere (R70, R55). -/
def consumeWord (s : State) : State := { s with inputs := s.inputs.tail, cycle := s.cycle + 1 }

end Sys2Proof.Machine
end

