-- ==== Sys2Proof/Machine/Demodulator.lean ====
section
/-! DEFINITION. The SAMPLE operation and the quadrature demodulator (40_demodulator.md, R100-R107). -/

namespace Sys2Proof.Machine

/-- The mixer `m = c · LAST`, exact (R103). -/
def mix (cfg : Config) (a : AdcWord) (rx : RxRegs) : Int := centre cfg a * rx.last.toInt

/-- One filter section `S' = wrap_32(S + asr(x - S, K))` (R104). -/
def filterSection (k : Nat) (S x : Int) : Int := wrap accW (S + asr (x - S) k)

/-- `S0'`: section 0, fed by the mixed value (R104). -/
def filter0 (cfg : Config) (a : AdcWord) (rx : RxRegs) : Int := filterSection cfg.k0 rx.s0.toInt (mix cfg a rx)

/-- `S1'`: section 1, fed by the new `S0` (R104). -/
def filter1 (cfg : Config) (a : AdcWord) (rx : RxRegs) : Int := filterSection cfg.k1 rx.s1.toInt (filter0 cfg a rx)

/-- `S2'`: section 2, fed by the new `S1`; the filtered value `F` (R104, R105). -/
def filter2 (cfg : Config) (a : AdcWord) (rx : RxRegs) : Int := filterSection cfg.k2 rx.s2.toInt (filter1 cfg a rx)

/-- The RX registers after one sampling tick (R100): delay line (R102), filter (R104), bit-sync (R106), pulse (R107). -/
def sampleTick (cfg : Config) (a : AdcWord) (rx : RxRegs) : RxRegs :=
  { bitSync cfg (negOf (filter2 cfg a rx)) rx with
    last := BitVec.ofInt 15 (centre cfg a)
    s0   := BitVec.ofInt 32 (filter0 cfg a rx)
    s1   := BitVec.ofInt 32 (filter1 cfg a rx)
    s2   := BitVec.ofInt 32 (filter2 cfg a rx)
    tgl  := !rx.tgl }

/-- SAMPLE a (R100). -/
def execSample (a : AdcWord) (s : State) : Host.Outcome State Fault Refusal :=
  commit s { s with rx := sampleTick s.cfg a s.rx }

end Sys2Proof.Machine
end

