-- ==== Sys2Proof/Machine/ToneSynth.lean ====
section
/-! DEFINITION. The CARRIER operation and the tone synthesizer (42_tone_synth.md, R160-R164). -/

namespace Sys2Proof.Machine

/-- `PHASE' = zext_16(PHASE + inc)` (R162). -/
def nextPhase (cfg : Config) (t : Bool) (tx : TxRegs) : PhaseWord := BitVec.ofNat 16 (tx.phase.toNat + phaseInc cfg t)

/-- `idx = PHASE'[15:8]` (R163). -/
def sineIndex (phase : PhaseWord) : BitVec 8 := BitVec.ofNat 8 (bitsOf phase.toNat 15 8)

/-- `PWM' = lsr(v, PWM_SHIFT)` (R164). -/
def attenuate (v : Byte) : Byte := BitVec.ofNat 8 (lsr v.toNat pwmShift)

/-- The TX registers after one carrier tick (R160). -/
def carrierTick (cfg : Config) (t : Bool) (tx : TxRegs) : TxRegs :=
  { tx with
    phase := nextPhase cfg t tx
    pwm   := attenuate (romRead cfg.sine (sineIndex (nextPhase cfg t tx))) }

/-- CARRIER t (R160). -/
def execCarrier (t : Bool) (s : State) : Host.Outcome State Fault Refusal :=
  commit s { s with tx := carrierTick s.cfg t s.tx }

end Sys2Proof.Machine
end

