-- ==== Sys2Proof/Machine/Control.lean ====
section
/-! DEFINITION. NOP, SAMPLE_CARRIER and RESET (43_control_ops.md, R180-R182). -/

namespace Sys2Proof.Machine

/-- NOP: no register is written (R180). -/
def execNop (s : State) : Host.Outcome State Fault Refusal := commit s s

/-- SAMPLE_CARRIER a, t: both ticks read the registers of the start of the cycle and commit together (R181). -/
def execSampleCarrier (a : AdcWord) (t : Bool) (s : State) : Host.Outcome State Fault Refusal :=
  commit s { s with rx := sampleTick s.cfg a s.rx, tx := carrierTick s.cfg t s.tx }

/-- What RESET writes to the RX registers (R182). -/
def resetRx : RxRegs :=
  { last := 0, s0 := 0, s1 := 0, s2 := 0, sync := .idle, cnt := 0, rxb := true, tgl := false }

/-- What RESET writes to the TX registers (R182). -/
def resetTx : TxRegs := { phase := 0, pwm := 32 }

/-- RESET: every register takes its reset value; the configuration, the ROM in it, is unaffected (R182). -/
def execReset (s : State) : Host.Outcome State Fault Refusal :=
  commit s { s with rx := resetRx, tx := resetTx }

end Sys2Proof.Machine
end

