-- ==== Sys2Proof/Machine/Dispatch.lean ====
section
/-! DEFINITION. The meaning of each operation, one arm per constructor. -/

namespace Sys2Proof.Machine

def exec (i : Instr) (s : State) : Host.Outcome State Fault Refusal :=
  match i with
  | .nop => Sys2Proof.Machine.execNop s
  | .sample a => Sys2Proof.Machine.execSample a s
  | .carrier t => Sys2Proof.Machine.execCarrier t s
  | .sampleCarrier a t => Sys2Proof.Machine.execSampleCarrier a t s
  | .reset => Sys2Proof.Machine.execReset s

end Sys2Proof.Machine
end

