-- ==== Sys2Proof/Machine/Step.lean ====
section
/-! DEFINITION. One step is one clock cycle (R58, R240): the word on the input port selects the operation, which runs on
the registers of the start of the cycle. -/

namespace Sys2Proof.Machine

/-- One clock cycle (R11, R58, R71). -/
def step (s : State) : Host.Outcome State Fault Refusal :=
  exec (decodeWord s.cfg.adcW (portValue s.cfg (currentWord s))) (consumeWord s)

/-- `s` with the host driving the word `w` in the next cycle, in place of what it would have driven; the bits above
`nbits` are 0. log 2 -/
def State.withFetchWord (s : State) (nbits w : Nat) : State :=
  { s with inputs := BitVec.ofNat 19 (w % 2 ^ nbits) :: s.inputs.tail }

end Sys2Proof.Machine
end

