-- ==== Sys2Proof/Machine/Assembler.lean ====
section
/-! DEFINITION. The notation for sequences of input words (R78, R79): its text, its expansion into operations, their
input words, and the host driving them. A program is the host's (R78); the block holds none. log 12 -/

namespace Sys2Proof.Machine

/-- `n` copies of a sequence, in order (R79). -/
def copies (is : List Instr) : Nat → List Instr
  | 0     => []
  | n + 1 => is ++ copies is n

/-- The operations a program expands to, one per cycle (R78, R79). -/
def expand : Program → List Instr
  | .done                    => []
  | .line i rest             => i :: expand rest
  | .nops n rest             => copies [.nop] n ++ expand rest
  | .samples as rest         => as.map .sample ++ expand rest
  | .carriers t n rest       => copies [.carrier t] n ++ expand rest
  | .repeated n body rest    => copies (expand body) n ++ expand rest

/-- The input words of a program (R78). -/
def assemble (p : Program) : List InputWord := (expand p).map fun i => BitVec.ofNat 19 (encode i)

/-- The host schedules a program's words after those it has scheduled. log 2 -/
def State.drive (s : State) (p : Program) : State := { s with inputs := s.inputs ++ assemble p }

/-- The tokens of the notation. -/
inductive Token where
  | word (cs : List Char)
  | num (n : Nat)
  | comma
  | times
  | opening
  | closing
  | newline
deriving DecidableEq, Repr

/-- The value of a digit in a base up to sixteen. -/
def digitValue (base : Nat) (c : Char) : Option Nat :=
  let d := if '0' ≤ c ∧ c ≤ '9' then c.toNat - '0'.toNat
    else if 'a' ≤ c ∧ c ≤ 'f' then c.toNat - 'a'.toNat + 10
    else if 'A' ≤ c ∧ c ≤ 'F' then c.toNat - 'A'.toNat + 10
    else base
  if d < base then some d else none

/-- Digits, most significant first, after a value read so far. -/
def digitsValue (base acc : Nat) : List Char → Option Nat
  | []      => some acc
  | c :: cs => (digitValue base c).bind fun d => digitsValue base (acc * base + d) cs

/-- A run of characters between separators: a number, decimal or `0x` hexadecimal, or a word (R78). -/
def wordToken (cs : List Char) : Option Token :=
  match cs with
  | '0' :: 'x' :: d :: ds => (digitsValue 16 0 (d :: ds)).map .num
  | c :: rest => if c.isDigit then (digitsValue 10 0 (c :: rest)).map .num else some (.word cs)
  | [] => none

/-- Close the run of characters read so far (held last first) before the tokens that follow it. -/
def closeRun (run : List Char) (rest : Option (List Token)) : Option (List Token) :=
  if run.isEmpty then rest else (wordToken run.reverse).bind fun t => rest.map (t :: ·)

/-- The token of a character that stands for itself; the two brackets of REPEAT by their code points. -/
def punctuation (c : Char) : Option Token :=
  if c = ',' then some .comma
  else if c = '×' then some .times
  else if c = Char.ofNat 123 then some .opening
  else if c = Char.ofNat 125 then some .closing
  else none

/-- Text to tokens; a comment runs from `;` to the end of its line (R78). -/
def lex (comment : Bool) (run : List Char) : List Char → Option (List Token)
  | [] => closeRun run (some [])
  | c :: cs =>
    if c = '\n' then closeRun run ((lex false [] cs).map (.newline :: ·))
    else if comment then lex true [] cs
    else if c = ';' then closeRun run (lex true [] cs)
    else if c.isWhitespace then closeRun run (lex false [] cs)
    else match punctuation c with
      | some t => closeRun run ((lex false [] cs).map (t :: ·))
      | none   => lex false (c :: run) cs

/-- A sample operand in range (R78). -/
def sampleNumber (adcW n : Nat) : Option AdcWord := if n < 2 ^ adcW then some (BitVec.ofNat 15 n) else none

/-- A bit operand (R78). -/
def bitNumber : Nat → Option Bool
  | 0 => some false
  | 1 => some true
  | _ => none

/-- The samples of a SAMPLES line, separated by commas (R79). -/
def sampleList (adcW : Nat) : List Token → Option (List AdcWord × List Token)
  | .num n :: .comma :: ts => do
    let a ← sampleNumber adcW n
    let (as, rest) ← sampleList adcW ts
    return (a :: as, rest)
  | .num n :: ts => do
    let a ← sampleNumber adcW n
    return ([a], ts)
  | _ => none

/-- One line of R78 or R79 other than REPEAT: what it puts before the lines after it. -/
def readLine (adcW : Nat) (name : List Char) (ts : List Token) : Option ((Program → Program) × List Token) :=
  if name = "NOP".toList then
    match ts with
    | .num n :: rest => if 1 ≤ n then some (.nops n, rest) else none
    | rest           => some (.line .nop, rest)
  else if name = "SAMPLE".toList then
    match ts with
    | .num n :: rest => (sampleNumber adcW n).map fun a => (.line (.sample a), rest)
    | _              => none
  else if name = "CARRIER".toList then
    match ts with
    | .num n :: rest => (bitNumber n).map fun t => (.line (.carrier t), rest)
    | _              => none
  else if name = "SAMPLE_CARRIER".toList then
    match ts with
    | .num n :: .comma :: .num m :: rest =>
      (sampleNumber adcW n).bind fun a => (bitNumber m).map fun t => (.line (.sampleCarrier a t), rest)
    | _ => none
  else if name = "RESET".toList then some (.line .reset, ts)
  else if name = "SAMPLES".toList then (sampleList adcW ts).map fun (as, rest) => (.samples as, rest)
  else if name = "CARRIERS".toList then
    match ts with
    | .num n :: .times :: .num m :: rest => (bitNumber n).map fun t => (.carriers t m, rest)
    | _ => none
  else none

/-- Whether a line ends here: at a line break, a closing bracket or the end of the text. -/
def lineEnds : List Token → Bool
  | []            => true
  | .newline :: _ => true
  | .closing :: _ => true
  | _             => false

/-- The lines up to the end of the text or the closing bracket of the REPEAT around them, and the tokens left. The fuel
is at most one for each token. -/
def readLines (adcW : Nat) : Nat → List Token → Option (Program × List Token)
  | 0, _ => none
  | _ + 1, [] => some (.done, [])
  | _ + 1, .closing :: ts => some (.done, .closing :: ts)
  | fuel + 1, .newline :: ts => readLines adcW fuel ts
  | fuel + 1, .word name :: ts =>
    if name = "REPEAT".toList then
      match ts with
      | .num n :: .opening :: inner =>
        match readLines adcW fuel inner with
        | some (body, .closing :: rest) =>
          if lineEnds rest then (readLines adcW fuel rest).map fun (p, left) => (.repeated n body p, left) else none
        | _ => none
      | _ => none
    else
      match readLine adcW name ts with
      | some (put, rest) =>
        if lineEnds rest then (readLines adcW fuel rest).map fun (p, left) => (put p, left) else none
      | none => none
  | _ + 1, _ => none

/-- The program a text stands for, or none where the text is none (R78, R79). -/
def parseProgram (adcW : Nat) (text : String) : Option Program :=
  (lex false [] text.toList).bind fun ts =>
    match readLines adcW (ts.length + 1) ts with
    | some (p, []) => some p
    | _            => none

end Sys2Proof.Machine
end

