-- ==== Sys2Proof/Machine/Ports.lean ====
section
/-! DEFINITION. The output ports (R76, R77), registered: what they show in a cycle is a function of the registers at the
end of the cycle before. -/

namespace Sys2Proof.Machine

/-- `enc(SYNC)`, the code on `sync_state`; 0b11 is never driven (R77). -/
def encodeSync : Sync → BitVec 2
  | .idle          => 0b00#2
  | .trackingMark  => 0b01#2
  | .trackingSpace => 0b10#2

/-- The output ports (R14, R76). -/
def outPorts (s : State) : Ports where
  rxBit     := s.rx.rxb
  rxPulse   := s.rx.tgl
  pwmDuty   := s.tx.pwm
  syncState := encodeSync s.rx.sync

end Sys2Proof.Machine
end

