-- ==== Sys2Proof/Safety.lean ====
section
/-! DEFINITION. What claims about FSKCORE are stated in: the reachable-value invariant (R34), reachability under any
words and any well-formed configuration, and sequences of operations. -/

namespace Sys2Proof.Machine

/-- `L = -ADC_MID·(ADC_MID - 1)` (R34(b)). -/
def productMin (cfg : Config) : Int := -((cfg.adcMid : Int) * ((cfg.adcMid : Int) - 1))

/-- `U = ADC_MID²` (R34(b)). -/
def productMax (cfg : Config) : Int := (cfg.adcMid : Int) * (cfg.adcMid : Int)

/-- The reachable-value invariants of R34, (a) to (e) in order. -/
structure Inv (s : State) : Prop where
  last   : -(s.cfg.adcMid : Int) ≤ s.rx.last.toInt ∧ s.rx.last.toInt ≤ (s.cfg.adcMid : Int) - 1
  s0     : productMin s.cfg ≤ s.rx.s0.toInt ∧ s.rx.s0.toInt ≤ productMax s.cfg
  s1     : productMin s.cfg ≤ s.rx.s1.toInt ∧ s.rx.s1.toInt ≤ productMax s.cfg
  s2     : productMin s.cfg ≤ s.rx.s2.toInt ∧ s.rx.s2.toInt ≤ productMax s.cfg
  idle   : s.rx.sync = .idle → s.rx.cnt = 0
  counts : s.rx.sync ≠ .idle → 0 ≤ s.rx.cnt.toInt ∧ s.rx.cnt.toInt ≤ s.cfg.edgeHi
  pwm    : s.tx.pwm.toNat ≤ 63

/-- The state RESET produces under a configuration, with words scheduled by the host. -/
def State.resetOf (cfg : Config) (words : List InputWord) : State :=
  { State.reset with cfg := cfg, inputs := words }

/-- Reachable from reset under a well-formed configuration and any input words (R34). -/
inductive Reachable : State → Prop where
  | reset (cfg : Config) (words : List InputWord) : cfg.wf = true → Reachable (State.resetOf cfg words)
  | step {s t : State} : Reachable s → step s = .next t → Reachable t

/-- `n` cycles of the machine, stopping where one stops: the host interface's own run. -/
def runCycles (n : Nat) (s : State) : Host.Outcome State Fault Refusal := Sys2Proof.core.run n s

/-- Run operations in order, one per cycle, stopping where one stops (R58). -/
def execAll : List Instr → State → Host.Outcome State Fault Refusal
  | [], s => .next s
  | i :: is, s =>
    match exec i s with
    | .next t    => execAll is t
    | .fault r   => .fault r
    | .refused r => .refused r

/-- Whether an operation runs the sampling tick (R3, R71). -/
def runsSample : Instr → Bool
  | .nop               => false
  | .sample _          => true
  | .carrier _         => false
  | .sampleCarrier _ _ => true
  | .reset             => false

/-- Whether an operation is RESET. -/
def isReset : Instr → Bool
  | .nop               => false
  | .sample _          => false
  | .carrier _         => false
  | .sampleCarrier _ _ => false
  | .reset             => true

/-- How many of the operations run the sampling tick. -/
def sampleCount (is : List Instr) : Nat := is.countP runsSample

/-- What an operation is to the RX datapath alone (R2, R8). -/
def rxView : Instr → Instr
  | .nop               => .nop
  | .sample a          => .sample a
  | .carrier _         => .nop
  | .sampleCarrier a _ => .sample a
  | .reset             => .reset

/-- What an operation is to the TX datapath alone (R2, R8). -/
def txView : Instr → Instr
  | .nop               => .nop
  | .sample _          => .nop
  | .carrier t         => .carrier t
  | .sampleCarrier _ t => .carrier t
  | .reset             => .reset

end Sys2Proof.Machine
end

