-- ==== Sys2Proof/Certificates/Slice0/Obligations.lean ====
section
/-! DEFINITION. The statements about FSKCORE, from the spec's numbered rules. Where a statement says `s.cfg.wf`, the
configuration is well-formed (R7); it holds of every such configuration and of every register value. -/

open Sys2Proof Sys2Proof.Machine

/-! Decoding (30_encoding.md) -/

/-- R71: the operation is chosen by the low three bits, whatever the other fields hold. -/
def Obligations.DecodeFollowsStrobes : Prop :=
  ∀ adcW w : Nat,
    (w % 8 = 0 → decodeWord adcW w = .nop) ∧
    (w % 8 = 1 → decodeWord adcW w = .sample (BitVec.ofNat 15 (w / 16 % 2 ^ adcW))) ∧
    (w % 8 = 2 → decodeWord adcW w = .carrier (decide (w / 8 % 2 = 1))) ∧
    (w % 8 = 3 →
      decodeWord adcW w = .sampleCarrier (BitVec.ofNat 15 (w / 16 % 2 ^ adcW)) (decide (w / 8 % 2 = 1))) ∧
    (4 ≤ w % 8 → decodeWord adcW w = .reset)

/-- R72: for every word and every `ADC_W`, exactly one row of the opcode map matches, and it is the row of the decoded
operation. -/
def Obligations.OpcodeMapSelectsOneRow : Prop :=
  (opcodeMap.map fun r => (r.mnemonic, r.bits, r.mask)) =
    [("NOP", 0x0000, 0x0007), ("SAMPLE", 0x0001, 0x0007), ("CARRIER", 0x0002, 0x0007),
     ("SAMPLE_CARRIER", 0x0003, 0x0007), ("RESET", 0x0004, 0x0004)] ∧
  ∀ adcW w : Nat, ∃ r, opcodeMap.filter (fun r => r.selects w) = [r] ∧ r.mnemonic = (decodeWord adcW w).mnemonic

/-- R70, R74, U4: words that agree on the strobes and on the fields the operation reads decode to the same operation. -/
def Obligations.IgnoredFieldsHaveNoEffect : Prop :=
  ∀ adcW v w : Nat, v % 8 = w % 8 →
    (rstField v = false → carrierStrobe v = true → v / 8 % 2 = w / 8 % 2) →
    (rstField v = false → sampleStrobe v = true → v / 16 % 2 ^ adcW = w / 16 % 2 ^ adcW) →
    decodeWord adcW v = decodeWord adcW w

/-- The words R78 writes out, and one of P5, each decoded under `ADC_W = 10`. -/
def Obligations.SpecWordsDecode : Prop :=
  decode 10 0x2BC1 = .ok (.sample 700) ∧ decode 10 0x000A = .ok (.carrier true) ∧
  decode 10 0x2003 = .ok (.sampleCarrier 512 false) ∧ decode 10 0x0004 = .ok .reset ∧
  decode 10 0x0000 = .ok .nop ∧ decode 10 0x2BCF = .ok .reset

/-- Decoding the input word of a well-formed operation gives the operation back, at every `ADC_W` (R71, R72, R78). -/
def Obligations.DecodeOfEncodeIsTheOperation : Prop :=
  ∀ (adcW : Nat) (i : Instr), i.wf adcW = true → decode adcW (encode i) = .ok i

/-- Every word of the port decodes, to an operation with operands in range (R73, R74); a number wider than the port is
no input word (the model's choice, log 11). -/
def Obligations.EveryPortWordDecodesWellFormed : Prop :=
  ∀ adcW w : Nat, adcW ≤ 15 →
    (w < 2 ^ (adcW + 4) → decode adcW w = .ok (decodeWord adcW w)) ∧
    (decodeWord adcW w).wf adcW = true ∧
    (2 ^ (adcW + 4) ≤ w → decode adcW w = .error .widerThanPort)

/-! The step (20_memory.md R58, 70_reset_and_hazards.md R240) -/

/-- One step runs the operation the driven word decodes to, on the registers of the start of the cycle; the word is
consumed and the cycle counted (the model's own fields, log 2 and log 3). Where no word is scheduled, the same of the
free word, whatever it is. -/
def Obligations.StepRunsTheDecodedOperation : Prop :=
  (∀ (s : State) (w : InputWord) (rest : List InputWord) (i : Instr), s.inputs = w :: rest →
    decode s.cfg.adcW (w.toNat % 2 ^ (s.cfg.adcW + 4)) = .ok i →
    step s = exec i { s with inputs := rest, cycle := s.cycle + 1 }) ∧
  (∀ (s : State) (i : Instr), s.inputs = [] →
    decode s.cfg.adcW ((hostWord s.cycle).toNat % 2 ^ (s.cfg.adcW + 4)) = .ok i →
    step s = exec i { s with cycle := s.cycle + 1 })

/-- A run over scheduled words of well-formed operations is those operations in order, one per cycle (R58, R75, R234,
R240); the schedule and the cycle number are the model's own fields (log 2, log 3). -/
def Obligations.ScheduledWordsRunTheirOperations : Prop :=
  ∀ (is : List Instr) (s : State) (rest : List InputWord), s.cfg.wf = true →
    (∀ i ∈ is, i.wf s.cfg.adcW = true) →
    s.inputs = (is.map fun i => BitVec.ofNat 19 (encode i)) ++ rest →
    runCycles is.length s = execAll is { s with inputs := rest, cycle := s.cycle + is.length }

/-- R234: a word held for `k` cycles runs its operation `k` times; the schedule and the cycle number are the model's own
fields (log 2, log 3). -/
def Obligations.HeldStrobeRunsOncePerCycle : Prop :=
  ∀ (k : Nat) (s : State) (w : InputWord) (rest : List InputWord), s.cfg.wf = true →
    s.inputs = List.replicate k w ++ rest →
    runCycles k s =
      execAll (List.replicate k (decodeWord s.cfg.adcW w.toNat)) { s with inputs := rest, cycle := s.cycle + k }

/-! Configuration and refusal (00_scope.md R6, R7, 60_exceptions.md R200) -/

/-- R7, R200: an operation is refused exactly when the configuration is not well-formed, the ranges of R6 and the
conditions (a) to (d) of R7 written out; nothing else is refused, and the default configuration is not. The last of
the ranges is the canonical form of the ROM contents, the model's own (log 9). -/
def Obligations.OnlyIllFormedConfigurationsAreRefused : Prop :=
  Config.default.wf = true ∧
  ∀ (i : Instr) (s : State) (r : Refusal), exec i s = .refused r ↔
    (r = .illFormedConfiguration ∧
      ¬ (2 ≤ s.cfg.adcW ∧ s.cfg.adcW ≤ 15 ∧ s.cfg.k0 ≤ 31 ∧ s.cfg.k1 ≤ 31 ∧ s.cfg.k2 ≤ 31 ∧
        s.cfg.phaseIncMark ≤ 65535 ∧ s.cfg.phaseIncSpace ≤ 65535 ∧
        (1 ≤ s.cfg.bitCenter ∧ s.cfg.bitCenter ≤ s.cfg.edgeLo) ∧
        (s.cfg.edgeLo < s.cfg.edgeHi ∧ s.cfg.edgeHi ≤ 2 ^ 15 - 2) ∧
        (1 ≤ s.cfg.symbolLen ∧ s.cfg.symbolLen ≤ s.cfg.edgeHi + 1) ∧
        s.cfg.edgeHi + 1 < s.cfg.bitCenter + s.cfg.symbolLen ∧
        Memory.wf s.cfg.sine = true))

/-- R200, R206: under a well-formed configuration every operation and every step completes, from every state. -/
def Obligations.EveryCycleCompletes : Prop :=
  ∀ s : State, s.cfg.wf = true → (∀ i : Instr, ∃ t, exec i s = .next t) ∧ ∃ t, step s = .next t

/-- R237, R61: no step changes a parameter, nor any entry of the ROM. -/
def Obligations.NoStepChangesTheConfiguration : Prop :=
  ∀ s t : State, step s = .next t →
    t.cfg = s.cfg ∧ ∀ idx : BitVec 8, romRead t.cfg.sine idx = romRead s.cfg.sine idx

/-- R6, R50: the ROM of a configuration can hold any table of 256 entries of 8 bits: the contents built from the table
are canonical, a well-formed configuration stays well-formed with them, and they read as that table; how contents are
held is the model's choice (log 9). -/
def Obligations.RomHoldsAnyTable : Prop :=
  ∀ (table : List Byte), (h : table.length = 256) →
    Memory.wf (romOfTable table) = true ∧
    (∀ cfg : Config, cfg.wf = true → Config.wf { cfg with sine := romOfTable table } = true) ∧
    ∀ idx : BitVec 8, romRead (romOfTable table) idx = table[idx.toNat]'(by rw [h]; exact idx.isLt)

/-- R52: the properties of the default table. -/
def Obligations.DefaultTableProperties : Prop :=
  (romRead [] 0 = 128 ∧ romRead [] 128 = 128) ∧
  ((∀ i : BitVec 8, (romRead [] i).toNat ≤ 255 ∧ (romRead [] i = 255 ↔ 61 ≤ i.toNat ∧ i.toNat ≤ 67)) ∧
    (∀ i : BitVec 8, 1 ≤ (romRead [] i).toNat ∧ (romRead [] i = 1 ↔ 189 ≤ i.toNat ∧ i.toNat ≤ 195))) ∧
  (∀ j : Nat, j ≤ 127 →
    (romRead [] (BitVec.ofNat 8 (128 + j))).toNat = 256 - (romRead [] (BitVec.ofNat 8 j)).toNat) ∧
  (∀ j : Nat, j ≤ 64 → romRead [] (BitVec.ofNat 8 (64 - j)) = romRead [] (BitVec.ofNat 8 (64 + j))) ∧
  ((List.range 256).map fun i => (romRead [] (BitVec.ofNat 8 i)).toNat).sum = 256 * 128 ∧
  (∀ d : Nat, (∃ i : BitVec 8, (attenuate (romRead [] i)).toNat = d) ↔ d ≤ 63) ∧
  attenuate (romRead [] 0) = 32

/-! NOP and RESET (43_control_ops.md) -/

/-- R180: NOP completes and leaves the whole state, and any word of op 000 is NOP, whatever A and T hold. -/
def Obligations.NopKeepsEverything : Prop :=
  (∀ s : State, s.cfg.wf = true → exec .nop s = .next s) ∧
  (∀ adcW w : Nat, w &&& 0x0007 = 0x0000 → decodeWord adcW w = .nop)

/-- R182: RESET, from any state, writes every register's reset value and leaves the configuration with its ROM; any
word with `rst` set is RESET, whatever the strobes and fields hold; RESET held is RESET once; the ports then show the
reset values. -/
def Obligations.ResetWritesTheResetValues : Prop :=
  (∀ s : State, s.cfg.wf = true → ∃ t, exec .reset s = .next t ∧
    t.rx = { last := 0, s0 := 0, s1 := 0, s2 := 0, sync := .idle, cnt := 0, rxb := true, tgl := false } ∧
    t.tx = { phase := 0, pwm := 32 } ∧ t.cfg = s.cfg ∧ t.inputs = s.inputs ∧ t.cycle = s.cycle ∧
    (∀ idx : BitVec 8, romRead t.cfg.sine idx = romRead s.cfg.sine idx) ∧
    outPorts t = { rxBit := true, rxPulse := false, pwmDuty := 32, syncState := 0b00#2 } ∧
    ∀ k : Nat, execAll (List.replicate (k + 1) .reset) s = .next t) ∧
  (∀ adcW w : Nat, w &&& 0x0004 = 0x0004 → decodeWord adcW w = .reset)

/-- R20, R35: the state after reset holds the table's values, under the default configuration of R6; that no word is
scheduled and the cycle number is 0 is the model's choice (log 2, log 3). -/
def Obligations.ResetStateHoldsTheTable : Prop :=
  State.reset.rx = { last := 0, s0 := 0, s1 := 0, s2 := 0, sync := .idle, cnt := 0, rxb := true, tgl := false } ∧
  State.reset.tx = { phase := 0, pwm := 32 } ∧
  State.reset.cfg = { adcW := 10, k0 := 1, k1 := 2, k2 := 1, symbolLen := 28, bitCenter := 14, edgeLo := 20,
                      edgeHi := 36, rxInvert := false, phaseIncMark := 2333, phaseIncSpace := 2123, sine := [] } ∧
  State.reset.inputs = [] ∧ State.reset.cycle = 0

/-! SAMPLE (40_demodulator.md) -/

/-- R100: SAMPLE completes, with every register of the RX datapath as the pseudocode gives it and everything else
unchanged; the words of op 001 are SAMPLE. The integers are the pseudocode's: `c` is centred, `m` mixed, `x0`, `x1`,
`x2` the three filter sections in order, each fed by the new value before it. -/
def Obligations.SampleRunsTheSamplingTick : Prop :=
  (∀ (s : State) (a : AdcWord), s.cfg.wf = true →
    let c : Int := (a.toNat % 2 ^ s.cfg.adcW : Nat) - (2 ^ (s.cfg.adcW - 1) : Nat)
    let m : Int := c * s.rx.last.toInt
    let x0 : Int := sext 32 (s.rx.s0.toInt + asr (m - s.rx.s0.toInt) s.cfg.k0)
    let x1 : Int := sext 32 (s.rx.s1.toInt + asr (x0 - s.rx.s1.toInt) s.cfg.k1)
    let x2 : Int := sext 32 (s.rx.s2.toInt + asr (x1 - s.rx.s2.toInt) s.cfg.k2)
    ∃ t, exec (.sample a) s = .next t ∧
      t.rx.last.toInt = c ∧ t.rx.s0.toInt = x0 ∧ t.rx.s1.toInt = x1 ∧ t.rx.s2.toInt = x2 ∧
      t.rx.sync = (bitSync s.cfg (decide (x2 < 0)) s.rx).sync ∧
      t.rx.cnt = (bitSync s.cfg (decide (x2 < 0)) s.rx).cnt ∧
      t.rx.rxb = (bitSync s.cfg (decide (x2 < 0)) s.rx).rxb ∧
      t.rx.tgl = !s.rx.tgl ∧
      t.tx = s.tx ∧ t.cfg = s.cfg ∧ t.inputs = s.inputs ∧ t.cycle = s.cycle ∧
      ∀ idx : BitVec 8, romRead t.cfg.sine idx = romRead s.cfg.sine idx) ∧
  (∀ adcW w : Nat, w &&& 0x0007 = 0x0001 →
    decodeWord adcW w = .sample (BitVec.ofNat 15 (w / 16 % 2 ^ adcW)))

/-- R101, R102: after any sampling tick `LAST` holds the centred sample, exactly, in `[-ADC_MID, ADC_MID - 1]`, both
ends reached. -/
def Obligations.DelayLineHoldsTheCentredSample : Prop :=
  (∀ (s t : State) (i : Instr) (a : AdcWord), (i = .sample a ∨ ∃ b, i = .sampleCarrier a b) →
    a.toNat < 2 ^ s.cfg.adcW → exec i s = .next t →
    t.rx.last.toInt = (a.toNat : Int) - (2 ^ (s.cfg.adcW - 1) : Nat) ∧
    -(s.cfg.adcMid : Int) ≤ t.rx.last.toInt ∧ t.rx.last.toInt ≤ (s.cfg.adcMid : Int) - 1) ∧
  (∀ cfg : Config, cfg.wf = true →
    centre cfg 0 = -(cfg.adcMid : Int) ∧ centre cfg (BitVec.ofNat 15 cfg.adcMid) = 0 ∧
    centre cfg (BitVec.ofNat 15 (2 ^ cfg.adcW - 1)) = (cfg.adcMid : Int) - 1)

/-- R103: the product of two centred samples is exact and lies in `[-ADC_MID·(ADC_MID-1), ADC_MID²]`, both reached, and
fits in `2·ADC_W` signed bits; a zero factor gives zero. -/
def Obligations.MixerProductStaysInRange : Prop :=
  ∀ cfg : Config, cfg.wf = true →
    (∀ (a : AdcWord) (rx : RxRegs), -(cfg.adcMid : Int) ≤ rx.last.toInt → rx.last.toInt ≤ (cfg.adcMid : Int) - 1 →
      mix cfg a rx = centre cfg a * rx.last.toInt ∧
      productMin cfg ≤ mix cfg a rx ∧ mix cfg a rx ≤ productMax cfg ∧
      -((2 ^ (2 * cfg.adcW - 1) : Nat) : Int) ≤ mix cfg a rx ∧ mix cfg a rx < ((2 ^ (2 * cfg.adcW - 1) : Nat) : Int)) ∧
    (∀ (a : AdcWord) (rx : RxRegs), centre cfg a = 0 ∨ rx.last = 0 → mix cfg a rx = 0) ∧
    (∀ rx : RxRegs, rx.last.toInt = -(cfg.adcMid : Int) → mix cfg 0 rx = productMax cfg) ∧
    (∀ rx : RxRegs, rx.last.toInt = (cfg.adcMid : Int) - 1 → mix cfg 0 rx = productMin cfg) ∧
    (∀ rx : RxRegs, rx.last.toInt = -(cfg.adcMid : Int) →
      mix cfg (BitVec.ofNat 15 (2 ^ cfg.adcW - 1)) rx = productMin cfg)

/-- R104(b), (c), (d): how a section moves. From below it moves up whenever it is `2^k` or more short, stands still when
it is less, so it stops short by at most `2^k - 1`, and never passes its input; a negative difference moves it down by
at least 1 and never past its input; shift 0 copies the input; equal values do not move. -/
def Obligations.FilterSectionMovesTowardItsInput : Prop :=
  ∀ (k : Nat) (S x : Int), -(2 ^ 30 : Int) ≤ S → S ≤ 2 ^ 30 → -(2 ^ 30 : Int) ≤ x → x ≤ 2 ^ 30 →
    (S ≤ x → x - S < (2 ^ k : Nat) → filterSection k S x = S) ∧
    (S + (2 ^ k : Nat) ≤ x → S + 1 ≤ filterSection k S x) ∧
    (S ≤ x → S ≤ filterSection k S x ∧ filterSection k S x ≤ x) ∧
    (x < S → x ≤ filterSection k S x ∧ filterSection k S x ≤ S - 1) ∧
    filterSection 0 S x = x ∧ filterSection k S S = S

/-- R104(a), R34(b): from a state that meets the invariant, the three new sections are the exact sums, the 32-bit wrap
changing nothing, and lie in the range of a product of two centred samples. -/
def Obligations.FilterCascadeIsExact : Prop :=
  ∀ (s t : State) (i : Instr) (a : AdcWord), Inv s → (i = .sample a ∨ ∃ b, i = .sampleCarrier a b) →
    exec i s = .next t →
    t.rx.s0.toInt = s.rx.s0.toInt + asr (mix s.cfg a s.rx - s.rx.s0.toInt) s.cfg.k0 ∧
    t.rx.s1.toInt = s.rx.s1.toInt + asr (t.rx.s0.toInt - s.rx.s1.toInt) s.cfg.k1 ∧
    t.rx.s2.toInt = s.rx.s2.toInt + asr (t.rx.s1.toInt - s.rx.s2.toInt) s.cfg.k2 ∧
    (productMin s.cfg ≤ t.rx.s0.toInt ∧ t.rx.s0.toInt ≤ productMax s.cfg) ∧
    (productMin s.cfg ≤ t.rx.s1.toInt ∧ t.rx.s1.toInt ≤ productMax s.cfg) ∧
    (productMin s.cfg ≤ t.rx.s2.toInt ∧ t.rx.s2.toInt ≤ productMax s.cfg)

/-- R105, R106: the bit-sync step of a sampling tick sees exactly the sign of the new `S2`, 0 counting as non-negative. -/
def Obligations.BitSyncReadsTheNewFilteredSign : Prop :=
  ∀ (s t : State) (i : Instr), runsSample i = true → exec i s = .next t →
    let b := bitSync s.cfg (decide (t.rx.s2.toInt < 0)) s.rx
    t.rx.sync = b.sync ∧ t.rx.cnt = b.cnt ∧ t.rx.rxb = b.rxb

/-- R107: every sampling tick inverts `TGL`, whatever else it does; and from reset, with no further RESET, `TGL` is 0
exactly when an even number of sampling ticks has run. -/
def Obligations.PulseIndicatorCountsSamples : Prop :=
  (∀ (s t : State) (i : Instr), runsSample i = true → exec i s = .next t → t.rx.tgl = !s.rx.tgl) ∧
  ∀ (cfg : Config) (words : List InputWord) (is : List Instr), cfg.wf = true → (∀ i ∈ is, isReset i = false) →
    ∃ t, execAll is (State.resetOf cfg words) = .next t ∧ (t.rx.tgl = false ↔ sampleCount is % 2 = 0)

/-! Bit-sync (41_bit_sync.md) -/

/-- R131: in `Idle` a negative filtered value locks onto `TrackingSpace` at counter 0, any other changes nothing; `RXB`
is kept; and no operation but RESET leads back to `Idle`. -/
def Obligations.IdleLocksOnANegativeSign : Prop :=
  (∀ (s t : State) (i : Instr), runsSample i = true → s.rx.sync = .idle → exec i s = .next t →
    (t.rx.s2.toInt < 0 → t.rx.sync = .trackingSpace ∧ t.rx.cnt = 0 ∧ t.rx.rxb = s.rx.rxb) ∧
    (0 ≤ t.rx.s2.toInt → t.rx.sync = .idle ∧ t.rx.cnt = s.rx.cnt ∧ t.rx.rxb = s.rx.rxb)) ∧
  (∀ (s t : State) (i : Instr), isReset i = false → s.rx.sync ≠ .idle → exec i s = .next t → t.rx.sync ≠ .idle)

/-- R133: in a tracking state, at `n = BIT_CENTER` the sign of the new `S2` is latched, negative as 0, inverted by
`RX_INVERT`, and neither a wrap nor an edge happens; at any other `n`, `RXB` is kept. -/
def Obligations.BitCentreLatchesTheSign : Prop :=
  ∀ (s t : State) (i : Instr), runsSample i = true → s.rx.sync ≠ .idle → exec i s = .next t →
    (s.rx.cnt.toInt + 1 = s.cfg.bitCenter →
      t.rx.rxb = xor (decide (0 ≤ t.rx.s2.toInt)) s.cfg.rxInvert ∧
      t.rx.sync = s.rx.sync ∧ t.rx.cnt.toInt = s.cfg.bitCenter) ∧
    (s.rx.cnt.toInt + 1 ≠ s.cfg.bitCenter → t.rx.rxb = s.rx.rxb)

/-- R134: past `EDGE_HI` the counter goes back by exactly one symbol and `SYNC` is kept, whatever the sign; from a state
that meets the invariant this is `n = EDGE_HI + 1` exactly. -/
def Obligations.CounterWrapsByOneSymbol : Prop :=
  ∀ (s t : State) (i : Instr), runsSample i = true → s.rx.sync ≠ .idle → exec i s = .next t →
    s.rx.cnt.toInt + 1 > s.cfg.edgeHi →
    t.rx.cnt.toInt = s.rx.cnt.toInt + 1 - s.cfg.symbolLen ∧ t.rx.sync = s.rx.sync ∧
    (Inv s → s.rx.cnt.toInt + 1 = s.cfg.edgeHi + 1 ∧ t.rx.cnt.toInt = (s.cfg.edgeHi : Int) + 1 - s.cfg.symbolLen)

/-- R132, R135: short of a wrap, a sign that disagrees with the tracked tone inside the window `EDGE_LO < n` switches the
tone and restarts the counter; otherwise the counter takes `n` and the tone is kept. -/
def Obligations.EdgeInsideTheWindowSwitchesTone : Prop :=
  ∀ (s t : State) (i : Instr), runsSample i = true → s.rx.sync ≠ .idle → exec i s = .next t →
    s.rx.cnt.toInt + 1 ≤ s.cfg.edgeHi →
    ((s.cfg.edgeLo < s.rx.cnt.toInt + 1 ∧ s.rx.sync = .trackingMark ∧ t.rx.s2.toInt < 0) →
      t.rx.sync = .trackingSpace ∧ t.rx.cnt = 0) ∧
    ((s.cfg.edgeLo < s.rx.cnt.toInt + 1 ∧ s.rx.sync = .trackingSpace ∧ 0 ≤ t.rx.s2.toInt) →
      t.rx.sync = .trackingMark ∧ t.rx.cnt = 0) ∧
    ((s.rx.cnt.toInt + 1 ≤ s.cfg.edgeLo ∨ (s.rx.sync = .trackingMark ∧ 0 ≤ t.rx.s2.toInt) ∨
        (s.rx.sync = .trackingSpace ∧ t.rx.s2.toInt < 0)) →
      t.rx.sync = s.rx.sync ∧ t.rx.cnt.toInt = s.rx.cnt.toInt + 1)

/-- R137(a): apart from RESET, `SYNC` changes only at an `Idle` exit (R131) or at an accepted edge (R135: inside the
window, the sign of the new `S2` disagreeing with the tracked tone, and to the other tone), and then the counter is 0. -/
def Obligations.SyncChangesOnlyAtLockOrEdge : Prop :=
  ∀ (s t : State) (i : Instr), isReset i = false → exec i s = .next t → t.rx.sync ≠ s.rx.sync →
    runsSample i = true ∧ t.rx.cnt = 0 ∧
    ((s.rx.sync = .idle ∧ t.rx.sync = .trackingSpace ∧ t.rx.s2.toInt < 0) ∨
     (s.cfg.edgeLo < s.rx.cnt.toInt + 1 ∧ s.rx.cnt.toInt + 1 ≤ s.cfg.edgeHi ∧
       ((s.rx.sync = .trackingMark ∧ t.rx.s2.toInt < 0 ∧ t.rx.sync = .trackingSpace) ∨
        (s.rx.sync = .trackingSpace ∧ 0 ≤ t.rx.s2.toInt ∧ t.rx.sync = .trackingMark))))

/-- R137(b), (c): from a tracking state with counter 0 (a lock or an accepted edge), over any operations without RESET
that hold at most `EDGE_LO` sampling ticks: no edge is accepted and the counter counts the ticks; `RXB` is kept up to
the tick before the bit centre, and tick number `BIT_CENTER` latches the sign of its filtered value. -/
def Obligations.SymbolAfterAnEdge : Prop :=
  ∀ (s : State) (is : List Instr), s.cfg.wf = true → s.rx.sync ≠ .idle → s.rx.cnt = 0 →
    (∀ i ∈ is, isReset i = false) → sampleCount is ≤ s.cfg.edgeLo →
    ∃ t, execAll is s = .next t ∧ t.rx.sync = s.rx.sync ∧ t.rx.cnt.toInt = sampleCount is ∧
      (sampleCount is < s.cfg.bitCenter → t.rx.rxb = s.rx.rxb) ∧
      (∀ i, runsSample i = true → sampleCount is + 1 = s.cfg.bitCenter →
        ∃ u, exec i t = .next u ∧ u.rx.rxb = xor (decide (0 ≤ u.rx.s2.toInt)) s.cfg.rxInvert)

/-- R134, R137(f): from a tracking state with counter 0, over any operations without RESET in which every filtered value
agrees with the tracked tone, the machine runs free: the tone is kept, the counter runs up to `EDGE_HI` and then
round a period of `SYMBOL_LEN` from `EDGE_HI + 1 - SYMBOL_LEN`, and from the bit centre on `RXB` is the tone's bit. -/
def Obligations.FreeRunningCounterCycles : Prop :=
  ∀ (s : State) (is : List Instr), s.cfg.wf = true → s.rx.sync ≠ .idle → s.rx.cnt = 0 →
    (∀ i ∈ is, isReset i = false) →
    (∀ (p : List Instr) (u : State), p <+: is → 0 < sampleCount p → execAll p s = .next u →
      (u.rx.s2.toInt < 0 ↔ s.rx.sync = .trackingSpace)) →
    ∃ t, execAll is s = .next t ∧ t.rx.sync = s.rx.sync ∧
      (sampleCount is ≤ s.cfg.edgeHi → t.rx.cnt.toInt = sampleCount is) ∧
      (s.cfg.edgeHi < sampleCount is →
        t.rx.cnt.toInt = ((s.cfg.edgeHi + 1 - s.cfg.symbolLen) +
          (sampleCount is - (s.cfg.edgeHi + 1)) % s.cfg.symbolLen : Nat)) ∧
      (s.cfg.bitCenter ≤ sampleCount is →
        t.rx.rxb = xor (decide (s.rx.sync = .trackingMark)) s.cfg.rxInvert)

/-- R137(d): from reset, while no filtered value is negative, the machine stays in `Idle` with counter 0 and `RXB` 1. -/
def Obligations.IdleWhileNoNegativeSign : Prop :=
  ∀ (cfg : Config) (words : List InputWord) (is : List Instr), cfg.wf = true →
    (∀ (p : List Instr) (u : State), p <+: is → execAll p (State.resetOf cfg words) = .next u → 0 ≤ u.rx.s2.toInt) →
    ∃ t, execAll is (State.resetOf cfg words) = .next t ∧
      t.rx.sync = .idle ∧ t.rx.cnt = 0 ∧ t.rx.rxb = true

/-- R137(e): the first sampling tick after reset has a non-negative filtered value, namely 0. -/
def Obligations.FirstSampleIsNotNegative : Prop :=
  ∀ (cfg : Config) (words : List InputWord) (before : List Instr) (i : Instr), cfg.wf = true →
    sampleCount before = 0 → runsSample i = true →
    ∃ t, execAll (before ++ [i]) (State.resetOf cfg words) = .next t ∧
      t.rx.s0 = 0 ∧ t.rx.s1 = 0 ∧ t.rx.s2 = 0 ∧ t.rx.sync = .idle ∧ t.rx.rxb = true

/-! CARRIER (42_tone_synth.md) -/

/-- R160: CARRIER completes: the phase advances by the selected increment modulo 2^16, the duty is the ROM entry at the
top eight bits of the new phase shifted right by 2, and everything else is unchanged; the words of op 010 are CARRIER. -/
def Obligations.CarrierRunsTheToneTick : Prop :=
  (∀ (s : State) (b : Bool), s.cfg.wf = true →
    ∃ t, exec (.carrier b) s = .next t ∧
      t.tx.phase.toNat = (s.tx.phase.toNat + (if b then s.cfg.phaseIncMark else s.cfg.phaseIncSpace)) % 2 ^ 16 ∧
      t.tx.pwm.toNat = (romRead s.cfg.sine (t.tx.phase.extractLsb' 8 8)).toNat / 4 ∧
      t.rx = s.rx ∧ t.cfg = s.cfg ∧ t.inputs = s.inputs ∧ t.cycle = s.cycle ∧
      ∀ idx : BitVec 8, romRead t.cfg.sine idx = romRead s.cfg.sine idx) ∧
  (∀ adcW w : Nat, w &&& 0x0007 = 0x0002 → decodeWord adcW w = .carrier (decide (w / 8 % 2 = 1)))

/-- R165(b), R162: whatever came before, a carrier tick moves the phase by the increment of its own bit, modulo 2^16, and
no operation but a carrier tick and RESET moves it. -/
def Obligations.PhaseNeverJumps : Prop :=
  (∀ (s t : State) (i : Instr) (b : Bool), (i = .carrier b ∨ ∃ a, i = .sampleCarrier a b) → exec i s = .next t →
    t.tx.phase - s.tx.phase = BitVec.ofNat 16 (if b then s.cfg.phaseIncMark else s.cfg.phaseIncSpace)) ∧
  (∀ (s t : State) (i : Instr), (i = .nop ∨ ∃ a, i = .sample a) → exec i s = .next t → t.tx.phase = s.tx.phase)

/-- R165(a): with the bit held, the k-th phase after reset is `k·inc mod 2^16`, and it repeats after
`2^16 / gcd(inc, 2^16)` carrier ticks. -/
def Obligations.PhaseAfterHeldBitIsPeriodic : Prop :=
  ∀ (cfg : Config) (words : List InputWord) (b : Bool) (k : Nat), cfg.wf = true →
    ∃ t u, execAll (List.replicate k (.carrier b)) (State.resetOf cfg words) = .next t ∧
      t.tx.phase.toNat = k * phaseInc cfg b % 2 ^ 16 ∧
      execAll (List.replicate (2 ^ 16 / Nat.gcd (phaseInc cfg b) (2 ^ 16)) (.carrier b)) t = .next u ∧
      u.tx.phase = t.tx.phase

/-- R164: every carrier tick leaves as duty the ROM entry it reads shifted right by 2, in 0..63, bits 7 and 6 zero. -/
def Obligations.DutyStaysBelowSixtyFour : Prop :=
  ∀ (s t : State) (i : Instr) (b : Bool), (i = .carrier b ∨ ∃ a, i = .sampleCarrier a b) → exec i s = .next t →
    t.tx.pwm.toNat = (romRead s.cfg.sine (t.tx.phase.extractLsb' 8 8)).toNat / 2 ^ 2 ∧
    t.tx.pwm.toNat ≤ 63 ∧ t.tx.pwm.getLsbD 7 = false ∧ t.tx.pwm.getLsbD 6 = false

/-! SAMPLE_CARRIER and the two datapaths (43_control_ops.md R181, 00_scope.md R8) -/

/-- R181: SAMPLE_CARRIER completes; its RX registers are SAMPLE's, its TX registers CARRIER's, everything else is
unchanged; it equals SAMPLE then CARRIER and CARRIER then SAMPLE; the words of op 011 are SAMPLE_CARRIER. -/
def Obligations.SampleCarrierIsBothInEitherOrder : Prop :=
  (∀ (s : State) (a : AdcWord) (b : Bool), s.cfg.wf = true →
    ∃ t u v, exec (.sampleCarrier a b) s = .next t ∧ exec (.sample a) s = .next u ∧ exec (.carrier b) s = .next v ∧
      t.rx = u.rx ∧ t.tx = v.tx ∧ t.cfg = s.cfg ∧ t.inputs = s.inputs ∧ t.cycle = s.cycle ∧
      (∀ idx : BitVec 8, romRead t.cfg.sine idx = romRead s.cfg.sine idx) ∧
      execAll [.sample a, .carrier b] s = .next t ∧ execAll [.carrier b, .sample a] s = .next t) ∧
  (∀ adcW w : Nat, w &&& 0x0007 = 0x0003 →
    decodeWord adcW w = .sampleCarrier (BitVec.ofNat 15 (w / 16 % 2 ^ adcW)) (decide (w / 8 % 2 = 1)))

/-- R8: single writer and no cross read: what an operation does to one datapath's registers depends on the
configuration and that datapath's registers only, and CARRIER writes no RX register, SAMPLE no TX register, NOP none. -/
def Obligations.DatapathsDoNotReadEachOther : Prop :=
  (∀ (i : Instr) (s s' t t' : State), s.cfg = s'.cfg → exec i s = .next t → exec i s' = .next t' →
    (s.rx = s'.rx → t.rx = t'.rx) ∧ (s.tx = s'.tx → t.tx = t'.tx)) ∧
  (∀ (i : Instr) (s t : State), exec i s = .next t → isReset i = false →
    (rxView i = .nop → t.rx = s.rx) ∧ (txView i = .nop → t.tx = s.tx))

/-- R2, R8, R181, R238: over any sequence of operations the two datapaths are two independent machines: the RX registers
are what the RX view of the sequence alone leaves, the TX registers what the TX view alone leaves. -/
def Obligations.SequencesSplitIntoTwoMachines : Prop :=
  ∀ (is : List Instr) (s : State), s.cfg.wf = true →
    ∃ t u v, execAll is s = .next t ∧ execAll (is.map rxView) s = .next u ∧ execAll (is.map txView) s = .next v ∧
      t.rx = u.rx ∧ t.tx = v.tx

/-! Invariants (10_state.md R34) -/

/-- The invariant of R34 holds in every state reset leaves, under every well-formed configuration. -/
def Obligations.ResetMeetsTheInvariant : Prop :=
  ∀ (cfg : Config) (words : List InputWord), cfg.wf = true → Inv (State.resetOf cfg words)

/-- The invariant of R34 is kept by every step, from every state that meets it, whatever word the host drives. -/
def Obligations.StepKeepsTheInvariant : Prop :=
  ∀ s t : State, Inv s → step s = .next t → Inv t

/-- R34: its invariants hold in every state reachable from reset under any words and any well-formed configuration, and
there the 32-bit wrap of R104 never changes a value. -/
def Obligations.ReachableStatesMeetTheInvariant : Prop :=
  ∀ s : State, Reachable s →
    Inv s ∧
    ∀ a : AdcWord,
      filter0 s.cfg a s.rx = s.rx.s0.toInt + asr (mix s.cfg a s.rx - s.rx.s0.toInt) s.cfg.k0 ∧
      filter1 s.cfg a s.rx = s.rx.s1.toInt + asr (filter0 s.cfg a s.rx - s.rx.s1.toInt) s.cfg.k1 ∧
      filter2 s.cfg a s.rx = s.rx.s2.toInt + asr (filter1 s.cfg a s.rx - s.rx.s2.toInt) s.cfg.k2

/-! Output ports (30_encoding.md R76, R77) and notation (R79) -/

/-- R76: each port is the register the table gives it. -/
def Obligations.PortsShowTheRegisters : Prop :=
  ∀ s : State, (outPorts s).rxBit = s.rx.rxb ∧ (outPorts s).rxPulse = s.rx.tgl ∧ (outPorts s).pwmDuty = s.tx.pwm ∧
    (outPorts s).syncState = encodeSync s.rx.sync

/-- R77: the codes of `sync_state`; 0b11 is never driven, and the code tells the states apart. -/
def Obligations.SyncStateCodes : Prop :=
  encodeSync .idle = 0b00#2 ∧ encodeSync .trackingMark = 0b01#2 ∧ encodeSync .trackingSpace = 0b10#2 ∧
  ∀ s : State, (outPorts s).syncState ≠ 0b11#2

/-- R79: what each pseudo-operation expands to, before the lines after it. -/
def Obligations.PseudoOperationsExpand : Prop :=
  ∀ (n : Nat) (as : List AdcWord) (t : Bool) (i : Instr) (body rest : Program),
    expand (.nops n rest) = List.replicate n .nop ++ expand rest ∧
    expand (.samples as rest) = as.map .sample ++ expand rest ∧
    expand (.carriers t n rest) = List.replicate n (.carrier t) ++ expand rest ∧
    expand (.repeated n body rest) = (List.replicate n (expand body)).flatten ++ expand rest ∧
    expand (.line i rest) = i :: expand rest
end

