-- ==== Sys2Proof/Laws/Assembler.lean ====
section
/-! SUPPORT. Copies of a sequence are the standard library's replicate. -/

namespace Sys2Proof.Machine

theorem copies_eq_flatten (is : List Instr) (n : Nat) : copies is n = (List.replicate n is).flatten := by
  induction n with
  | zero => rfl
  | succ n ih => simp [copies, ih, List.replicate_succ]

theorem copies_singleton (i : Instr) (n : Nat) : copies [i] n = List.replicate n i := by
  induction n with
  | zero => rfl
  | succ n ih => simp [copies, ih, List.replicate_succ]

end Sys2Proof.Machine
end

