-- ==== Sys2Proof/Laws/State.lean ====
section
/-! SUPPORT. The small lemmas of State: what each update leaves in each field, and what reset holds. -/

namespace Sys2Proof.Machine

variable (s : State) (nbits w : Nat) (cfg : Config) (ws : List InputWord) (a : AdcWord) (t : Bool) (rx : RxRegs)
  (tx : TxRegs)

@[simp] theorem consumeWord_cfg : (consumeWord s).cfg = s.cfg := rfl
@[simp] theorem consumeWord_rx : (consumeWord s).rx = s.rx := rfl
@[simp] theorem consumeWord_tx : (consumeWord s).tx = s.tx := rfl
@[simp] theorem consumeWord_inputs : (consumeWord s).inputs = s.inputs.tail := rfl
@[simp] theorem consumeWord_cycle : (consumeWord s).cycle = s.cycle + 1 := rfl

@[simp] theorem withFetchWord_cfg : (s.withFetchWord nbits w).cfg = s.cfg := rfl
@[simp] theorem withFetchWord_rx : (s.withFetchWord nbits w).rx = s.rx := rfl
@[simp] theorem withFetchWord_tx : (s.withFetchWord nbits w).tx = s.tx := rfl
@[simp] theorem withFetchWord_inputs :
    (s.withFetchWord nbits w).inputs = BitVec.ofNat 19 (w % 2 ^ nbits) :: s.inputs.tail := rfl
@[simp] theorem withFetchWord_cycle : (s.withFetchWord nbits w).cycle = s.cycle := rfl

@[simp] theorem resetOf_cfg : (State.resetOf cfg ws).cfg = cfg := rfl
@[simp] theorem resetOf_rx : (State.resetOf cfg ws).rx = resetRx := rfl
@[simp] theorem resetOf_tx : (State.resetOf cfg ws).tx = resetTx := rfl
@[simp] theorem resetOf_inputs : (State.resetOf cfg ws).inputs = ws := rfl
@[simp] theorem resetOf_cycle : (State.resetOf cfg ws).cycle = 0 := rfl

@[simp] theorem reset_cfg : State.reset.cfg = Config.default := rfl
@[simp] theorem reset_rx : State.reset.rx = resetRx := rfl
@[simp] theorem reset_tx : State.reset.tx = resetTx := rfl
@[simp] theorem reset_inputs : State.reset.inputs = [] := rfl
@[simp] theorem reset_cycle : State.reset.cycle = 0 := rfl

@[simp] theorem sampleTick_last : (sampleTick cfg a rx).last = BitVec.ofInt 15 (centre cfg a) := rfl
@[simp] theorem sampleTick_s0 : (sampleTick cfg a rx).s0 = BitVec.ofInt 32 (filter0 cfg a rx) := rfl
@[simp] theorem sampleTick_s1 : (sampleTick cfg a rx).s1 = BitVec.ofInt 32 (filter1 cfg a rx) := rfl
@[simp] theorem sampleTick_s2 : (sampleTick cfg a rx).s2 = BitVec.ofInt 32 (filter2 cfg a rx) := rfl
@[simp] theorem sampleTick_sync :
    (sampleTick cfg a rx).sync = (bitSync cfg (negOf (filter2 cfg a rx)) rx).sync := rfl
@[simp] theorem sampleTick_cnt :
    (sampleTick cfg a rx).cnt = (bitSync cfg (negOf (filter2 cfg a rx)) rx).cnt := rfl
@[simp] theorem sampleTick_rxb :
    (sampleTick cfg a rx).rxb = (bitSync cfg (negOf (filter2 cfg a rx)) rx).rxb := rfl
@[simp] theorem sampleTick_tgl : (sampleTick cfg a rx).tgl = !rx.tgl := rfl

@[simp] theorem carrierTick_phase : (carrierTick cfg t tx).phase = nextPhase cfg t tx := rfl
@[simp] theorem carrierTick_pwm :
    (carrierTick cfg t tx).pwm = attenuate (romRead cfg.sine (sineIndex (nextPhase cfg t tx))) := rfl

end Sys2Proof.Machine
end

