-- ==== Sys2Proof/Laws/Bits.lean ====
section
/-! SUPPORT. The integer primitives and what they do in range. -/

namespace Sys2Proof.Machine

theorem zext_range (N : Nat) (v : Int) : 0 ≤ zext N v ∧ zext N v < ((2 ^ N : Nat) : Int) := by
  have h : (0 : Int) < ((2 ^ N : Nat) : Int) := by exact_mod_cast Nat.two_pow_pos N
  exact ⟨Int.emod_nonneg _ (by omega), Int.emod_lt_of_pos _ h⟩

theorem zext_of_lt {N : Nat} {v : Int} (h0 : 0 ≤ v) (h1 : v < ((2 ^ N : Nat) : Int)) : zext N v = v :=
  Int.emod_eq_of_lt h0 h1

/-- A value that fits is not changed by `wrap_32`. -/
theorem wrap_accW_of_range {v : Int} (h0 : -(2 ^ 31 : Int) ≤ v) (h1 : v < (2 ^ 31 : Int)) : wrap accW v = v := by
  simp only [wrap, sext, accW]
  norm_num at *
  omega

/-- `asr` never moves past its operand on the negative side nor past zero. -/
theorem asr_between (v : Int) (k : Nat) :
    (0 ≤ v → 0 ≤ asr v k ∧ asr v k ≤ v) ∧ (v ≤ 0 → v ≤ asr v k ∧ asr v k ≤ 0) := by
  have h1 : (1 : Int) ≤ ((2 ^ k : Nat) : Int) := by exact_mod_cast Nat.one_le_two_pow
  unfold asr
  constructor
  · intro hv
    exact ⟨Int.ediv_nonneg hv (by omega), Int.ediv_le_self _ hv⟩
  · intro hv
    refine ⟨?_, Int.ediv_nonpos_of_nonpos_of_neg hv (by omega)⟩
    rw [Int.le_ediv_iff_mul_le (by omega)]
    nlinarith

@[simp] theorem asr_zero (v : Int) : asr v 0 = v := by simp [asr]

theorem toInt_ofInt_acc {v : Int} (h0 : -(2 ^ 31 : Int) ≤ v) (h1 : v < (2 ^ 31 : Int)) :
    (BitVec.ofInt 32 v).toInt = v := by
  rw [BitVec.toInt_ofInt]
  exact Int.bmod_eq_of_le (by norm_num at *; omega) (by norm_num at *; omega)

theorem toInt_ofInt_adc {v : Int} (h0 : -(2 ^ 14 : Int) ≤ v) (h1 : v < (2 ^ 14 : Int)) :
    (BitVec.ofInt 15 v).toInt = v := by
  rw [BitVec.toInt_ofInt]
  exact Int.bmod_eq_of_le (by norm_num at *; omega) (by norm_num at *; omega)

theorem toInt_countWord {v : Int} (h0 : -(2 ^ 15 : Int) ≤ v) (h1 : v < (2 ^ 15 : Int)) :
    (countWord v).toInt = v := by
  unfold countWord
  rw [BitVec.toInt_ofInt]
  exact Int.bmod_eq_of_le (by norm_num at *; omega) (by norm_num at *; omega)

/-- A filter section gives a value between its state and its input, where `wrap_32` changes nothing (R34(b)). -/
theorem filterSection_between {k : Nat} {S x lo hi : Int} (hS : lo ≤ S ∧ S ≤ hi) (hx : lo ≤ x ∧ x ≤ hi)
    (hlo : -(2 ^ 31 : Int) ≤ lo) (hhi : hi < (2 ^ 31 : Int)) :
    filterSection k S x = S + asr (x - S) k ∧ lo ≤ filterSection k S x ∧ filterSection k S x ≤ hi := by
  have hb := asr_between (x - S) k
  have hr : lo ≤ S + asr (x - S) k ∧ S + asr (x - S) k ≤ hi := by
    rcases le_total 0 (x - S) with h | h
    · obtain ⟨h0, h1⟩ := hb.1 h; constructor <;> omega
    · obtain ⟨h0, h1⟩ := hb.2 h; constructor <;> omega
  have hw : filterSection k S x = S + asr (x - S) k := wrap_accW_of_range (by omega) (by omega)
  rw [hw]
  exact ⟨rfl, hr⟩

end Sys2Proof.Machine
end

