-- ==== Sys2Proof/Laws/BitSync.lean ====
section
/-! SUPPORT. Everything the bit-sync step can do (R130), and what well-formedness gives a proof. -/

namespace Sys2Proof.Machine

/-- What R6 and R7 say of a well-formed configuration. -/
theorem wf_facts {cfg : Config} (h : cfg.wf = true) :
    2 ≤ cfg.adcW ∧ cfg.adcW ≤ 15 ∧ cfg.phaseIncMark ≤ 65535 ∧ cfg.phaseIncSpace ≤ 65535 ∧
    1 ≤ cfg.bitCenter ∧ cfg.bitCenter ≤ cfg.edgeLo ∧ cfg.edgeLo < cfg.edgeHi ∧ cfg.edgeHi ≤ 32766 ∧
    1 ≤ cfg.symbolLen ∧ cfg.symbolLen ≤ cfg.edgeHi + 1 ∧ cfg.edgeHi + 1 - cfg.symbolLen < cfg.bitCenter := by
  simp only [Config.wf, Config.rangesOk, Config.bitSyncOk, adcMaxW, cntW, Bool.and_eq_true, decide_eq_true_eq] at h
  obtain ⟨⟨⟨⟨⟨⟨⟨⟨h1, h2⟩, -⟩, -⟩, -⟩, h3⟩, h4⟩, -⟩, ⟨⟨⟨⟨⟨h5, h6⟩, h7⟩, h8⟩, h9⟩, h10⟩, h11⟩ := h
  have h8' : cfg.edgeHi ≤ 32766 := of_decide_eq_true h8
  exact ⟨h1, of_decide_eq_true h2, h3, h4, h5, h6, h7, h8', h9, h10, h11⟩

/-- `ADC_MID` of a well-formed configuration: positive, half of `2^ADC_W`, at most `2^14`. -/
theorem adcMid_facts {cfg : Config} (h : cfg.wf = true) :
    1 ≤ cfg.adcMid ∧ 2 ^ cfg.adcW = 2 * cfg.adcMid ∧ cfg.adcMid ≤ 2 ^ 14 := by
  obtain ⟨h2, h15, -⟩ := wf_facts h
  refine ⟨Nat.one_le_two_pow, ?_, Nat.pow_le_pow_right (by norm_num) (by omega)⟩
  unfold Config.adcMid
  conv_lhs => rw [show cfg.adcW = (cfg.adcW - 1) + 1 by omega, Nat.pow_succ]
  ring

/-- The centred sample is in range whatever the operand (R101). -/
theorem centre_range {cfg : Config} (h : cfg.wf = true) (a : AdcWord) :
    -(cfg.adcMid : Int) ≤ centre cfg a ∧ centre cfg a ≤ (cfg.adcMid : Int) - 1 := by
  obtain ⟨-, hp, -⟩ := adcMid_facts h
  have hz := zext_range cfg.adcW a.toNat
  unfold centre sampleOperand
  rw [hp] at hz
  push_cast at hz
  constructor <;> omega

/-- The bit-sync step in `Idle` (R131). -/
theorem bitSync_idle (cfg : Config) (neg : Bool) {rx : RxRegs} (h : rx.sync = .idle) :
    bitSync cfg neg rx = if neg then { rx with sync := .trackingSpace, cnt := 0 } else rx := by
  simp [bitSync, h, idleStep]

/-- The bit-sync step in a tracking state is the tracking step (R130). -/
theorem bitSync_tracking (cfg : Config) (neg : Bool) {rx : RxRegs} (h : rx.sync ≠ .idle) :
    bitSync cfg neg rx = trackStep cfg neg rx := by
  unfold bitSync
  cases hs : rx.sync <;> simp_all

/-- Everything the tracking step can do: wrap (R134), a confirmed edge or an increment (R135). -/
theorem trackStep_cases (cfg : Config) (neg : Bool) (rx : RxRegs) :
    (nextCount rx > cfg.edgeHi ∧ (trackStep cfg neg rx).sync = rx.sync ∧
      (trackStep cfg neg rx).cnt = countWord (nextCount rx - cfg.symbolLen)) ∨
    (nextCount rx ≤ cfg.edgeHi ∧ nextCount rx > cfg.edgeLo ∧ mismatch rx.sync neg = true ∧
      (trackStep cfg neg rx).sync = otherTone rx.sync ∧ (trackStep cfg neg rx).cnt = 0) ∨
    (nextCount rx ≤ cfg.edgeHi ∧ ¬(nextCount rx > cfg.edgeLo ∧ mismatch rx.sync neg = true) ∧
      (trackStep cfg neg rx).sync = rx.sync ∧ (trackStep cfg neg rx).cnt = countWord (nextCount rx)) := by
  unfold trackStep
  split
  · exact .inl ⟨‹_›, rfl, rfl⟩
  · split
    · rename_i h1 h2; exact .inr (.inl ⟨by omega, h2.1, h2.2, rfl, rfl⟩)
    · exact .inr (.inr ⟨by omega, ‹_›, rfl, rfl⟩)

/-- The centre latch of the tracking step (R133). -/
theorem trackStep_rxb (cfg : Config) (neg : Bool) (rx : RxRegs) :
    (trackStep cfg neg rx).rxb = nextRxb cfg neg rx := by
  unfold trackStep
  split
  · rfl
  · split <;> rfl

@[simp] theorem otherTone_ne_idle {s : Sync} (h : s ≠ .idle) : otherTone s ≠ .idle := by
  cases s <;> simp_all [otherTone]

end Sys2Proof.Machine
end

