-- ==== Sys2Proof/Laws/Exec.lean ====
section
/-! SUPPORT. Everything a commit, an operation, a sequence of operations and a step can do. -/

namespace Sys2Proof.Machine

/-- The RX registers after an operation (R8, R11). -/
def rxAfter (cfg : Config) (rx : RxRegs) : Instr → RxRegs
  | .nop               => rx
  | .sample a          => sampleTick cfg a rx
  | .carrier _         => rx
  | .sampleCarrier a _ => sampleTick cfg a rx
  | .reset             => resetRx

/-- The TX registers after an operation (R8, R11). -/
def txAfter (cfg : Config) (tx : TxRegs) : Instr → TxRegs
  | .nop               => tx
  | .sample _          => tx
  | .carrier t         => carrierTick cfg t tx
  | .sampleCarrier _ t => carrierTick cfg t tx
  | .reset             => resetTx

/-- The state after an operation that completes. -/
def stateAfter (i : Instr) (s : State) : State :=
  { s with rx := rxAfter s.cfg s.rx i, tx := txAfter s.cfg s.tx i }

@[simp] theorem stateAfter_cfg (i : Instr) (s : State) : (stateAfter i s).cfg = s.cfg := rfl
@[simp] theorem stateAfter_rx (i : Instr) (s : State) : (stateAfter i s).rx = rxAfter s.cfg s.rx i := rfl
@[simp] theorem stateAfter_tx (i : Instr) (s : State) : (stateAfter i s).tx = txAfter s.cfg s.tx i := rfl
@[simp] theorem stateAfter_inputs (i : Instr) (s : State) : (stateAfter i s).inputs = s.inputs := rfl
@[simp] theorem stateAfter_cycle (i : Instr) (s : State) : (stateAfter i s).cycle = s.cycle := rfl

theorem commit_of_wf {s : State} (h : s.cfg.wf = true) (t : State) : commit s t = .next t := by simp [commit, h]

theorem commit_next {s t u : State} (h : commit s t = .next u) : s.cfg.wf = true ∧ u = t := by
  unfold commit at h
  split at h
  · cases h; exact ⟨‹_›, rfl⟩
  · cases h

/-- Every operation is one commit of its registers. -/
theorem exec_eq_commit (i : Instr) (s : State) : exec i s = commit s (stateAfter i s) := by
  cases i <;> rfl

theorem exec_of_wf (i : Instr) {s : State} (h : s.cfg.wf = true) : exec i s = .next (stateAfter i s) := by
  rw [exec_eq_commit, commit_of_wf h]

/-- What exec can do when it answers a next state. -/
theorem exec_next {i : Instr} {s t : State} (h : exec i s = .next t) : s.cfg.wf = true ∧ t = stateAfter i s :=
  commit_next (exec_eq_commit i s ▸ h)

/-- What a step can do when it answers a next state. -/
theorem step_next {s t : State} (h : step s = .next t) :
    s.cfg.wf = true ∧
      t = stateAfter (decodeWord s.cfg.adcW (portValue s.cfg (currentWord s))) (consumeWord s) := by
  obtain ⟨hwf, ht⟩ := exec_next h
  exact ⟨by simpa using hwf, ht⟩

@[simp] theorem runCycles_zero (s : State) : runCycles 0 s = .next s := rfl

/-- A cycle that completes, and then the rest. -/
theorem runCycles_succ {n : Nat} {s t : State} (h : step s = .next t) : runCycles (n + 1) s = runCycles n t := by
  have h' : Sys2Proof.core.step s = .next t := h
  simp only [runCycles, Host.Core.run, h']
  rfl

/-- Operations run one after the other. -/
theorem execAll_cons {i : Instr} {is : List Instr} {s : State} (h : s.cfg.wf = true) :
    execAll (i :: is) s = execAll is (stateAfter i s) := by
  simp [execAll, exec_of_wf i h]

/-- A sequence of operations is the fold of its operations. -/
theorem execAll_of_wf (is : List Instr) {s : State} (h : s.cfg.wf = true) :
    execAll is s = .next (is.foldl (fun u i => stateAfter i u) s) := by
  induction is generalizing s with
  | nil => rfl
  | cons i is ih => rw [execAll_cons h, ih (by simpa using h)]; rfl

/-- A sequence never changes the configuration (R237). -/
theorem foldl_stateAfter_cfg (is : List Instr) (s : State) :
    (is.foldl (fun u i => stateAfter i u) s).cfg = s.cfg := by
  induction is generalizing s with
  | nil => rfl
  | cons i is ih => simp [ih]

/-- One more operation at the end of a sequence that completes. -/
theorem execAll_snoc {is : List Instr} {i : Instr} {s t : State} (h : execAll is s = .next t) :
    execAll (is ++ [i]) s = exec i t := by
  induction is generalizing s with
  | nil => cases h; simp only [List.nil_append, execAll]; cases hi : exec i t <;> rfl
  | cons j is ih =>
    simp only [List.cons_append, execAll] at h ⊢
    cases hj : exec j s with
    | next u => rw [hj] at h; exact ih h
    | fault r => rw [hj] at h; cases h
    | refused r => rw [hj] at h; cases h

theorem execAll_cfg {is : List Instr} {s t : State} (h : execAll is s = .next t) (hwf : s.cfg.wf = true) :
    t.cfg = s.cfg := by
  rw [execAll_of_wf is hwf] at h
  cases h
  exact foldl_stateAfter_cfg is s

/-- Induction over a run: what holds of the empty sequence and is kept by one more operation holds after any sequence. -/
theorem execAll_induction {s : State} (hwf : s.cfg.wf = true) {P : List Instr → State → Prop} (h0 : P [] s)
    (hs : ∀ is i t, execAll is s = .next t → P is t → P (is ++ [i]) (stateAfter i t)) (is : List Instr) :
    ∃ t, execAll is s = .next t ∧ P is t := by
  induction is using List.reverseRecOn with
  | nil => exact ⟨s, rfl, h0⟩
  | append_singleton is i ih =>
    obtain ⟨t, h1, h2⟩ := ih
    have hc : t.cfg.wf = true := by rw [execAll_cfg h1 hwf]; exact hwf
    exact ⟨stateAfter i t, (execAll_snoc h1).trans (exec_of_wf i hc), hs _ _ _ h1 h2⟩

end Sys2Proof.Machine
end

