-- ==== Sys2Proof/Laws/Datapath.lean ====
section
/-! SUPPORT. What a sampling tick and a carrier tick store, read back as the spec's integers. -/

namespace Sys2Proof.Machine

theorem sext32_range (v : Int) : -(2 ^ 31 : Int) ≤ sext 32 v ∧ sext 32 v < (2 ^ 31 : Int) := by
  unfold sext
  norm_num
  omega

/-- A section's value fits its register whatever the inputs: it is a `wrap_32` (R104). -/
theorem toInt_filterSection (k : Nat) (S x : Int) :
    (BitVec.ofInt 32 (filterSection k S x)).toInt = filterSection k S x :=
  toInt_ofInt_acc (sext32_range _).1 (sext32_range _).2

/-- The centred sample fits `LAST` (R102). -/
theorem toInt_centre {cfg : Config} (h : cfg.wf = true) (a : AdcWord) :
    (BitVec.ofInt 15 (centre cfg a)).toInt = centre cfg a := by
  obtain ⟨h1, h2⟩ := centre_range h a
  have h3 : (cfg.adcMid : Int) ≤ 2 ^ 14 := by exact_mod_cast (adcMid_facts h).2.2
  exact toInt_ofInt_adc (by omega) (by omega)

theorem attenuate_toNat (v : Byte) : (attenuate v).toNat = v.toNat / 4 := by
  have := v.isLt
  simp [attenuate, lsr, pwmShift]
  omega

theorem sineIndex_eq_extract (p : PhaseWord) : sineIndex p = p.extractLsb' 8 8 := by
  apply BitVec.eq_of_toNat_eq
  simp [sineIndex, bitsOf, BitVec.extractLsb'_toNat, Nat.shiftRight_eq_div_pow]

/-- An operation that runs the sampling tick leaves what that tick leaves. -/
theorem rxAfter_of_samples {i : Instr} (h : runsSample i = true) :
    ∃ a, ∀ (cfg : Config) (rx : RxRegs), rxAfter cfg rx i = sampleTick cfg a rx := by
  cases i <;> simp_all [runsSample] <;> exact ⟨_, fun _ _ => rfl⟩

/-- An operation that neither samples nor resets leaves the RX registers. -/
theorem rxAfter_of_idle {i : Instr} (h : runsSample i = false) (hr : isReset i = false) (cfg : Config) (rx : RxRegs) :
    rxAfter cfg rx i = rx := by
  cases i <;> simp_all [runsSample, isReset, rxAfter]

end Sys2Proof.Machine
end

