-- ==== Sys2Proof/Laws/PerInstr.lean ====
section
/-! SUPPORT. A family of lemmas with one lemma per constructor of Instr: every well-formed operation's input word fits
the port of `ADC_W + 4` lines (R70). -/

namespace Sys2Proof.Laws.EncodeFitsPort

/-- The input word of a well-formed operation has no bit above the port's lines. -/
def Statement (i : Instr) : Prop := ∀ adcW : Nat, i.wf adcW = true → encode i < 2 ^ (adcW + 4)

theorem port_pos (adcW : Nat) : 16 ≤ 2 ^ (adcW + 4) := by
  rw [Nat.pow_add]
  have := Nat.two_pow_pos adcW
  omega

theorem nop : Statement .nop := fun adcW _ => by
  have := port_pos adcW
  simp only [encode]; omega

theorem sample (a : AdcWord) : Statement (.sample a) := fun adcW h => by
  simp only [Instr.wf, decide_eq_true_eq] at h
  simp only [encode, Nat.pow_add]
  omega

theorem carrier (t : Bool) : Statement (.carrier t) := fun adcW _ => by
  have := port_pos adcW
  cases t <;> simp [encode] <;> omega

theorem sampleCarrier (a : AdcWord) (t : Bool) : Statement (.sampleCarrier a t) := fun adcW h => by
  simp only [Instr.wf, decide_eq_true_eq] at h
  simp only [encode, Nat.pow_add]
  cases t <;> simp <;> omega

theorem reset : Statement .reset := fun adcW _ => by
  have := port_pos adcW
  simp only [encode]; omega

end Sys2Proof.Laws.EncodeFitsPort
end

