-- ==== Sys2Proof/Laws/Decode.lean ====
section
/-! SUPPORT. The fields of an input word as arithmetic, and the masks of the opcode map. -/

namespace Sys2Proof

theorem testBit_eq_mod (w k : Nat) : w.testBit k = decide (w / 2 ^ k % 2 = 1) := by
  simp [Nat.testBit_eq_decide_div_mod_eq]

theorem sampleStrobe_eq (w : Nat) : sampleStrobe w = decide (w % 2 = 1) := by simp [sampleStrobe, testBit_eq_mod]

theorem carrierStrobe_eq (w : Nat) : carrierStrobe w = decide (w / 2 % 2 = 1) := by
  simp [carrierStrobe, testBit_eq_mod]

theorem rstField_eq (w : Nat) : rstField w = decide (w / 4 % 2 = 1) := by simp [rstField, testBit_eq_mod]

theorem txBitField_eq (w : Nat) : txBitField w = decide (w / 8 % 2 = 1) := by simp [txBitField, testBit_eq_mod]

/-- The mask 0x0007 keeps the three strobe bits. -/
theorem and_seven (w : Nat) : w &&& 7 = w % 8 := Nat.and_two_pow_sub_one_eq_mod w 3

/-- The mask 0x0004 keeps `rst`. -/
theorem and_four (w : Nat) : (w &&& 4 = 4) ↔ 4 ≤ w % 8 := by
  have h : w &&& 4 = (w % 8) &&& 4 := by rw [← and_seven, Nat.and_assoc]; rfl
  rw [h]
  have : w % 8 < 8 := Nat.mod_lt _ (by norm_num)
  interval_cases w % 8 <;> simp

end Sys2Proof
end

