-- ==== Sys2Proof/Laws/Rom.lean ====
section
/-! SUPPORT. The sine ROM: its canonical form is kept, and a read after an entry was fixed gives that entry. -/

namespace Sys2Proof.Machine

@[simp] theorem romRead_nil (idx : BitVec 8) : romRead [] idx = sineUnlisted idx := rfl

theorem ofNat_toNat_idx (idx : BitVec 8) : BitVec.ofNat 8 idx.toNat = idx := by simp

/-- Canonical from `lo` is canonical from any lower index. -/
theorem sineWfFrom_mono {lo lo' : Nat} {m : Memory} (h : lo' ≤ lo) (hm : sineWfFrom lo m = true) :
    sineWfFrom lo' m = true := by
  cases m with
  | nil => rfl
  | cons c rest =>
    obtain ⟨a, b⟩ := c
    simp only [sineWfFrom, Bool.and_eq_true, decide_eq_true_eq] at *
    exact ⟨⟨⟨by omega, hm.1.1.2⟩, hm.1.2⟩, hm.2⟩

/-- An index below the first of a canonical list is not listed. -/
theorem lookup_of_lt {lo a : Nat} {m : Memory} (h : a < lo) (hm : sineWfFrom lo m = true) : m.lookup a = none := by
  induction m generalizing lo with
  | nil => rfl
  | cons c rest ih =>
    obtain ⟨x, b⟩ := c
    simp only [sineWfFrom, Bool.and_eq_true, decide_eq_true_eq] at hm
    have hne : (a == x) = false := by simp; omega
    simp only [List.lookup_cons, hne]
    exact ih (lo := x + 1) (by omega) hm.2

theorem romProgram_wfFrom {lo : Nat} {m : Memory} (idx : BitVec 8) (b : Byte) (hlo : lo ≤ idx.toNat)
    (hm : sineWfFrom lo m = true) : sineWfFrom lo (romProgram idx b m) = true := by
  have hidx := idx.isLt
  induction m generalizing lo with
  | nil =>
    unfold romProgram
    split
    · rfl
    · simp_all [sineWfFrom]
  | cons c rest ih =>
    obtain ⟨a, x⟩ := c
    have hm' := hm
    simp only [sineWfFrom, Bool.and_eq_true, decide_eq_true_eq] at hm
    obtain ⟨⟨⟨h1, h2⟩, h3⟩, h4⟩ := hm
    unfold romProgram
    split
    · simp only [sineWfFrom, Bool.and_eq_true, decide_eq_true_eq]
      exact ⟨⟨⟨h1, h2⟩, h3⟩, ih (by omega) h4⟩
    · split
      · subst_vars
        split
        · exact sineWfFrom_mono (by omega) h4
        · simp_all [sineWfFrom]
      · split
        · exact hm'
        · simp only [sineWfFrom, Bool.and_eq_true, decide_eq_true_eq, ofNat_toNat_idx]
          exact ⟨⟨⟨hlo, hidx⟩, by assumption⟩, ⟨⟨by omega, h2⟩, h3⟩, h4⟩

/-- Fixing an entry keeps the canonical form. -/
theorem romProgram_wf {m : Memory} (idx : BitVec 8) (b : Byte) (hm : m.wf = true) :
    Memory.wf (romProgram idx b m) = true :=
  romProgram_wfFrom idx b (Nat.zero_le _) hm

theorem romRead_romProgram_from {lo : Nat} {m : Memory} (idx j : BitVec 8) (b : Byte) (hm : sineWfFrom lo m = true) :
    romRead (romProgram idx b m) j = if j = idx then b else romRead m j := by
  have hji : ∀ {i j : BitVec 8}, i.toNat = j.toNat → i = j := fun h => BitVec.eq_of_toNat_eq h
  induction m generalizing lo with
  | nil =>
    unfold romProgram
    split
    · split <;> simp_all
    · by_cases h : j = idx
      · simp [romRead, h]
      · have : (j.toNat == idx.toNat) = false := by simp; exact fun h' => h (hji h')
        simp [romRead, List.lookup_cons, this, h]
  | cons c rest ih =>
    obtain ⟨a, x⟩ := c
    simp only [sineWfFrom, Bool.and_eq_true, decide_eq_true_eq] at hm
    obtain ⟨⟨⟨h1, h2⟩, h3⟩, h4⟩ := hm
    unfold romProgram
    split
    · rename_i hlt
      by_cases hja : j.toNat = a
      · have hne : j ≠ idx := by intro h; subst h; omega
        simp [romRead, hja, hne]
      · have hb : (j.toNat == a) = false := by simpa using hja
        have := ih h4
        simp only [romRead, List.lookup_cons, hb] at this ⊢
        exact this
    · split
      · rename_i hge heq
        split
        · rename_i hb
          by_cases h : j = idx
          · subst h
            have hl : rest.lookup j.toNat = none := lookup_of_lt (lo := a + 1) (by omega) h4
            simp [romRead, hl, hb]
          · have hb' : (j.toNat == a) = false := by
              simp; intro h'; exact h (hji (by omega))
            simp [romRead, List.lookup_cons, hb', h]
        · by_cases h : j = idx
          · simp [romRead, h]
          · have hb' : (j.toNat == idx.toNat) = false := by simp; exact fun h' => h (hji h')
            have hb'' : (j.toNat == a) = false := by simp; intro h'; exact h (hji (by omega))
            simp [romRead, List.lookup_cons, hb', hb'', h]
      · rename_i hge hne
        split
        · rename_i hb
          by_cases h : j = idx
          · subst h
            have hb' : (j.toNat == a) = false := by simp; omega
            have hl : rest.lookup j.toNat = none := lookup_of_lt (lo := a + 1) (by omega) h4
            simp [romRead, List.lookup_cons, hb', hl, hb]
          · simp [h]
        · by_cases h : j = idx
          · simp [romRead, h]
          · have hb' : (j.toNat == idx.toNat) = false := by simp; exact fun h' => h (hji h')
            simp [romRead, List.lookup_cons, hb', h]

/-- A read after an entry was fixed: that entry at its index, every other entry as before. -/
theorem romRead_romProgram {m : Memory} (hm : m.wf = true) (idx j : BitVec 8) (b : Byte) :
    romRead (romProgram idx b m) j = if j = idx then b else romRead m j :=
  romRead_romProgram_from idx j b hm

theorem romOfTableFrom_wf {first : Nat} {table : List Byte} (h : first + table.length ≤ 256) :
    sineWfFrom first (romOfTableFrom first table) = true := by
  induction table generalizing first with
  | nil => rfl
  | cons b rest ih =>
    simp only [List.length_cons] at h
    unfold romOfTableFrom
    split
    · exact sineWfFrom_mono (by omega) (ih (by omega))
    · simp only [sineWfFrom, Bool.and_eq_true, decide_eq_true_eq]
      exact ⟨⟨⟨le_refl _, by omega⟩, by assumption⟩, ih (by omega)⟩

/-- The contents built from any table are canonical. -/
theorem romOfTable_wf (table : List Byte) : Memory.wf (romOfTable table) = true :=
  romOfTableFrom_wf (by simp)

end Sys2Proof.Machine
end

