-- ==== Sys2Proof/Tests/Slice0.lean ====
section
/-! SUPPORT. The model's own tests. Expected values are the spec's: the vectors of 95_test_vectors.md and the worked
examples of the rules, named beside each. Then, for each statement with hypotheses, a state and operands that meet them. -/

namespace Sys2Proof.Tests

open Sys2Proof Sys2Proof.Machine

/-- A state of the default configuration, registers in the order of the spec's vectors. -/
def stateOf (last s0 s1 s2 : Int) (sync : Sync) (cnt : Int) (rxb tgl : Bool) (phase : PhaseWord) (pwm : Byte) : State where
  cfg    := Config.default
  rx     := { last := BitVec.ofInt 15 last, s0 := BitVec.ofInt 32 s0, s1 := BitVec.ofInt 32 s1,
              s2 := BitVec.ofInt 32 s2, sync := sync, cnt := BitVec.ofInt 16 cnt, rxb := rxb, tgl := tgl }
  tx     := { phase := phase, pwm := pwm }
  inputs := []
  cycle  := 0

/-- Whether an outcome is that next state. -/
def answers (o : Host.Outcome State Fault Refusal) (t : State) : Bool :=
  match o with
  | .next u    => decide (u = t)
  | .fault _   => false
  | .refused _ => false

/-- Whether an outcome refuses the configuration. -/
def refuses (o : Host.Outcome State Fault Refusal) : Bool :=
  match o with
  | .next _    => false
  | .fault _   => false
  | .refused r => decide (r = .illFormedConfiguration)

/-! Well-formedness: for each check an ill-formed term it refuses (R6, R7, R73, R79) -/

theorem test_default_configuration_is_wellformed : Config.default.wf = true := by decide

theorem test_adcW_bounds_refused :
    Config.wf { Config.default with adcW := 1 } = false ∧ Config.wf { Config.default with adcW := 16 } = false := by
  decide

theorem test_shift_bounds_refused :
    Config.wf { Config.default with k0 := 32 } = false ∧ Config.wf { Config.default with k1 := 32 } = false ∧
    Config.wf { Config.default with k2 := 32 } = false := by decide

theorem test_increment_bounds_refused :
    Config.wf { Config.default with phaseIncMark := 65536 } = false ∧
    Config.wf { Config.default with phaseIncSpace := 65536 } = false := by decide

theorem test_equal_increments_accepted : Config.wf { Config.default with phaseIncMark := 2123 } = true := by decide

theorem test_rom_form_refused :
    Memory.wf [(1, 7), (0, 7)] = false ∧ Memory.wf [(3, 7), (3, 8)] = false ∧ Memory.wf [(256, 7)] = false ∧
    Memory.wf [(0, 128)] = false ∧ Memory.wf [(0, 7), (255, 7)] = true := by decide

theorem test_bit_centre_refused :
    Config.wf { Config.default with bitCenter := 0 } = false ∧
    Config.wf { Config.default with bitCenter := 21 } = false := by decide

theorem test_edge_window_refused :
    Config.wf { Config.default with edgeLo := 36 } = false ∧
    Config.wf { Config.default with edgeHi := 32767, symbolLen := 32768 } = false ∧
    Config.wf { Config.default with edgeHi := 32766, symbolLen := 32767 } = true := by decide

theorem test_symbol_length_refused :
    Config.wf { Config.default with symbolLen := 0 } = false ∧
    Config.wf { Config.default with symbolLen := 38 } = false ∧
    Config.wf { Config.default with symbolLen := 23 } = false ∧
    Config.wf { Config.default with symbolLen := 24 } = true := by decide

theorem test_operand_range_refused :
    Instr.wf 10 (.sample 1024) = false ∧ Instr.wf 10 (.sampleCarrier 1024 true) = false ∧
    Instr.wf 10 (.sample 1023) = true := by decide

theorem test_program_lines_refused :
    Program.wf 10 (.nops 0 .done) = false ∧ Program.wf 10 (.samples [] .done) = false ∧
    Program.wf 10 (.samples [5, 1024] .done) = false ∧
    Program.wf 10 (.repeated 2 (.line (.sample 1024) .done) .done) = false ∧
    Program.wf 10 (.carriers true 2 (.line (.sample 1024) .done)) = false := by decide

/-! Decoding: words written out from the patterns of R72 (vectors V-DEC), and words that are none -/

theorem test_decode_nop :   -- V-DEC-1, V-DEC-2, V-DEC-3
    decode 10 0b00000000000000 = .ok .nop ∧ decode 10 0b00000000001000 = .ok .nop ∧
    decode 10 0b11111111110000 = .ok .nop := by decide

theorem test_decode_sample :   -- V-DEC-4 to V-DEC-7
    decode 10 0b00000000000001 = .ok (.sample 0) ∧ decode 10 0b11111111110001 = .ok (.sample 1023) ∧
    decode 10 0b10000000000001 = .ok (.sample 512) ∧ decode 10 0b10101111000001 = .ok (.sample 700) := by decide

theorem test_decode_carrier :   -- V-DEC-8 to V-DEC-10
    decode 10 0b00000000000010 = .ok (.carrier false) ∧ decode 10 0b00000000001010 = .ok (.carrier true) ∧
    decode 10 0b11111111111010 = .ok (.carrier true) := by decide

theorem test_decode_sampleCarrier :   -- V-DEC-11, V-DEC-12
    decode 10 0b00000000000011 = .ok (.sampleCarrier 0 false) ∧
    decode 10 0b10101111001011 = .ok (.sampleCarrier 700 true) := by decide

theorem test_decode_reset :   -- V-DEC-13 to V-DEC-18
    decode 10 0b00000000000100 = .ok .reset ∧ decode 10 0b00000000000101 = .ok .reset ∧
    decode 10 0b00000000000110 = .ok .reset ∧ decode 10 0b00000000000111 = .ok .reset ∧
    decode 10 0b11111111111111 = .ok .reset ∧ decode 10 0b10101111001111 = .ok .reset := by decide

theorem test_decode_other_adcW :   -- R72: only the width of A changes
    decode 15 0b1000000000000010001 = .ok (.sample 16385) ∧ decode 2 0b111001 = .ok (.sample 3) := by decide

theorem test_decode_rejects_what_the_port_cannot_carry :
    decode 10 0b100000000000001 = .error .widerThanPort := by decide

theorem test_decodeTableWord : decodeTableWord 16 0x2BC1 = some (.sample 700) ∧
    decodeTableWord 14 0x2BCB = some (.sampleCarrier 700 true) ∧ decodeTableWord 16 0x4000 = none := by decide

theorem test_encode :   -- R78
    encode (.sample 700) = 0x2BC1 ∧ encode (.carrier true) = 0x000A ∧ encode (.sampleCarrier 512 false) = 0x2003 ∧
    encode .reset = 0x0004 ∧ encode .nop = 0x0000 := by decide

/-! The shared operations -/

theorem test_asr : asr (-1) 2 = -1 ∧ asr (-5) 1 = -3 ∧ asr 7 2 = 1 ∧ asr (-9965) 3 = -1246 := by decide   -- R10, R104

theorem test_sext : sext 32 0x80000000 = -0x80000000 ∧ sext 16 (-1) = -1 ∧ zext 10 1030 = 6 := by decide   -- R10

theorem test_filter_section :   -- V-FLT-1, 2, 5, 6, 8, 12, 13, 14
    filterSection 2 0 3 = 0 ∧ filterSection 2 0 (-3) = -1 ∧ filterSection 1 (-1) 0 = -1 ∧
    filterSection 2 (-4) (-1) = -4 ∧ filterSection 0 7 (-9) = -9 ∧ filterSection 3 (-9965) 0 = -8720 ∧
    filterSection 1 (-261632) 262144 = 256 ∧ filterSection 1 262144 (-261632) = 256 := by decide

theorem test_filter_section_wraps :   -- R104: wrap_32, in a state no run reaches
    filterSection 0 0x7FFFFFFF (-0x7FFFFFFF) = -0x7FFFFFFF ∧ filterSection 0 0 0x80000000 = -0x80000000 := by decide

/-- The bit-sync step on `SYNC`, `CNT`, `RXB`, under the default configuration with a given `RX_INVERT`. -/
def bitSyncOn (invert : Bool) (sync : Sync) (cnt : CntWord) (rxb neg : Bool) : Sync × CntWord × Bool :=
  let rx := bitSync { Config.default with rxInvert := invert } neg { resetRx with sync := sync, cnt := cnt, rxb := rxb }
  (rx.sync, rx.cnt, rx.rxb)

theorem test_bitSync_idle :   -- V-BS-1, V-BS-2, V-BS-3
    bitSyncOn false .idle 0 true false = (.idle, 0, true) ∧
    bitSyncOn false .idle 0 true true = (.trackingSpace, 0, true) ∧
    bitSyncOn false .idle 0 false false = (.idle, 0, false) := by decide

theorem test_bitSync_latch :   -- V-BS-5 to V-BS-9
    bitSyncOn false .trackingSpace 13 true true = (.trackingSpace, 14, false) ∧
    bitSyncOn false .trackingSpace 13 false false = (.trackingSpace, 14, true) ∧
    bitSyncOn false .trackingMark 13 false false = (.trackingMark, 14, true) ∧
    bitSyncOn true .trackingMark 13 true true = (.trackingMark, 14, true) ∧
    bitSyncOn true .trackingMark 13 false false = (.trackingMark, 14, false) := by decide

theorem test_bitSync_edge :   -- V-BS-10 to V-BS-13, V-BS-15
    bitSyncOn false .trackingSpace 19 true false = (.trackingSpace, 20, true) ∧
    bitSyncOn false .trackingSpace 20 true false = (.trackingMark, 0, true) ∧
    bitSyncOn false .trackingSpace 20 true true = (.trackingSpace, 21, true) ∧
    bitSyncOn false .trackingMark 27 true true = (.trackingSpace, 0, true) ∧
    bitSyncOn false .trackingMark 35 true true = (.trackingSpace, 0, true) := by decide

theorem test_bitSync_wrap :   -- V-BS-16, V-BS-17
    bitSyncOn false .trackingMark 36 true true = (.trackingMark, 9, true) ∧
    bitSyncOn false .trackingSpace 36 false true = (.trackingSpace, 9, false) := by decide

theorem test_attenuate :   -- V-PWM-3, 4, 8, 9
    attenuate 3 = 0 ∧ attenuate 4 = 1 ∧ attenuate 131 = 32 ∧ attenuate 255 = 63 := by decide

theorem test_rom_programmed_entry :   -- R6: another table
    romRead (romProgram 9 200 []) 9 = 200 ∧ romRead (romProgram 9 200 []) 8 = 153 ∧
    romProgram 9 156 (romProgram 9 200 []) = [] := by decide

/-! The operations, one step each -/

theorem test_nop_with_fields_set :   -- V-CTL-1
    answers (step ((stateOf (-212) (-19928) (-4982) (-2491) .trackingSpace 0 true false 4456 44).withFetchWord 16 0x3FF8))
      { stateOf (-212) (-19928) (-4982) (-2491) .trackingSpace 0 true false 4456 44 with cycle := 1 } = true := by decide +kernel

theorem test_sample_locks :   -- V-SMP-2
    answers (exec (.sample 300) (stateOf 188 0 0 0 .idle 0 true true 0 32))
      (stateOf (-212) (-19928) (-4982) (-2491) .trackingSpace 0 true false 0 32) = true := by decide

theorem test_sample_latches :   -- V-SMP-6
    answers (exec (.sample 1023) (stateOf 511 261120 260100 259590 .trackingMark 13 true false 0 32))
      (stateOf 511 261120 260355 259972 .trackingMark 14 true true 0 32) = true := by decide +kernel

theorem test_carrier_wraps :   -- V-CAR-3
    answers (exec (.carrier true) (stateOf 0 0 0 0 .idle 0 true false 64000 32))
      (stateOf 0 0 0 0 .idle 0 true false 797 34) = true := by decide

theorem test_carrier_space_increment :   -- V-CAR-7
    answers (exec (.carrier false) (stateOf 0 0 0 0 .idle 0 true false 47029 32))
      (stateOf 0 0 0 0 .idle 0 true false 49152 0) = true := by decide

theorem test_sampleCarrier_from_reset :   -- V-CTL-2, the worked example of R181
    answers (step (State.reset.withFetchWord 16 0x2BCB))
      { stateOf 188 0 0 0 .idle 0 true true 2333 39 with cycle := 1 } = true := by decide +kernel

theorem test_sampleCarrier_while_tracking :   -- V-CTL-5
    answers (exec (.sampleCarrier 300 false) (stateOf (-212) (-19928) (-4982) (-2491) .trackingSpace 0 true false 4456 44))
      (stateOf (-212) 12508 (-610) (-1551) .trackingSpace 1 true true 6579 50) = true := by decide +kernel

theorem test_reset_dominates :   -- V-CTL-4
    answers (step ((stateOf (-212) (-19928) (-4982) (-2491) .trackingSpace 0 true false 4456 44).withFetchWord 16 0x2BCF))
      { State.reset with cycle := 1 } = true := by decide +kernel

theorem test_reset_ports :   -- R182, example; R77
    outPorts State.reset = { rxBit := true, rxPulse := false, pwmDuty := 32, syncState := 0b00#2 } := by decide

theorem test_illformed_configuration_is_refused :   -- R7, U5
    refuses (exec .nop { State.reset with cfg := { Config.default with symbolLen := 0 } }) = true := by decide

/-! The notation (R78, R79) -/

theorem test_parse_operations :   -- the words R78 writes out
    (parseProgram 10 "NOP\nSAMPLE 700 ; a comment\nCARRIER 1\nSAMPLE_CARRIER 0x200, 0\nRESET").map assemble =
      some [0x0000, 0x2BC1, 0x000A, 0x2003, 0x0004] := by decide

theorem test_parse_pseudo_operations :   -- R79; the brackets of REPEAT by their code points
    (parseProgram 10 ("NOP 2\nSAMPLES 1023, 0\nCARRIERS 1 × 2\nREPEAT 2 " ++ String.singleton (Char.ofNat 123) ++
      "\n CARRIER 0\n" ++ String.singleton (Char.ofNat 125))).map expand =
      some [.nop, .nop, .sample 1023, .sample 0, .carrier true, .carrier true, .carrier false, .carrier false] := by
  decide

theorem test_parse_refuses :
    parseProgram 10 "SAMPLE 1024" = none ∧ parseProgram 10 "CARRIER 2" = none ∧ parseProgram 10 "NOP 0" = none ∧
    parseProgram 10 "SAMPLE 1 RESET" = none ∧ parseProgram 10 "sample 1" = none := by decide

/-! Memory, reset and the free field -/

theorem test_reset_rom_is_canonical : Memory.wf State.reset.cfg.sine = true := by decide

theorem test_resetOf_default_is_reset : State.resetOf Config.default [] = State.reset := by rfl

/-! Witnesses: for each statement with hypotheses, a state and operands that meet them all, at the ends of their ranges -/

/-- A tracking state at a counter value, at the silent fixed point of V-SMP-5: a sample of 512 leaves `S2` at -5. -/
def tracking (sync : Sync) (cnt : Int) : State := stateOf 0 (-1) (-4) (-5) sync cnt false true 0 32

/-- The same with a positive filter: a sample of 512 leaves `S2` at 0. -/
def trackingPositive (sync : Sync) (cnt : Int) : State := stateOf 0 0 0 0 sync cnt false true 0 32

theorem wf_reset : State.reset.cfg.wf = true := by decide

theorem wf_stateOf (last s0 s1 s2 : Int) (sync : Sync) (cnt : Int) (rxb tgl : Bool) (phase : PhaseWord) (pwm : Byte) :
    (stateOf last s0 s1 s2 sync cnt rxb tgl phase pwm).cfg.wf = true := wf_reset

theorem inv_reset : Inv State.reset where
  last   := by decide
  s0     := by decide
  s1     := by decide
  s2     := by decide
  idle   := by decide
  counts := by decide
  pwm    := by decide

theorem witness_DecodeFollowsStrobes :
    0 % 8 = 0 ∧ 0x3FF9 % 8 = 1 ∧ 0x3FFA % 8 = 2 ∧ 0x3FFB % 8 = 3 ∧ 4 ≤ 4 % 8 ∧ 4 ≤ 0x3FFF % 8 := by decide

theorem witness_IgnoredFieldsHaveNoEffect :
    0x3FFA % 8 = 0x000A % 8 ∧ rstField 0x3FFA = false ∧ carrierStrobe 0x3FFA = true ∧ 0x3FFA / 8 % 2 = 0x000A / 8 % 2 ∧
    sampleStrobe 0x3FFA = false := by decide

theorem witness_DecodeOfEncodeIsTheOperation :
    Instr.wf 10 (.sample 1023) = true ∧ Instr.wf 15 (.sampleCarrier 32767 true) = true ∧ Instr.wf 2 .reset = true := by
  decide

theorem witness_EveryPortWordDecodesWellFormed : 15 ≤ 15 ∧ 0x7FFFF < 2 ^ (15 + 4) ∧ 2 ^ (15 + 4) ≤ 0x80000 := by decide

theorem witness_StepRunsTheDecodedOperation :
    (let s := { State.reset with inputs := [0x2BC1] }
     s.inputs = [0x2BC1] ∧
       decode s.cfg.adcW ((0x2BC1 : InputWord).toNat % 2 ^ (s.cfg.adcW + 4)) = .ok (.sample 700)) ∧
    State.reset.inputs = [] ∧
    ∃ i, decode State.reset.cfg.adcW
      ((hostWord State.reset.cycle).toNat % 2 ^ (State.reset.cfg.adcW + 4)) = .ok i :=
  ⟨by decide, rfl, ⟨_, if_pos (Nat.mod_lt _ (Nat.two_pow_pos _))⟩⟩

theorem witness_ScheduledWordsRunTheirOperations :
    let s := { State.reset with inputs := [0x2BC1, 0x000A, 0x0000] }
    s.cfg.wf = true ∧ (∀ i ∈ [Instr.sample 700, Instr.carrier true], i.wf s.cfg.adcW = true) ∧
      s.inputs = ([Instr.sample 700, Instr.carrier true].map fun i => BitVec.ofNat 19 (encode i)) ++ [0x0000] := by
  decide

theorem witness_HeldStrobeRunsOncePerCycle :
    let s := { State.reset with inputs := [0x2BC1, 0x2BC1, 0x0004] }
    s.cfg.wf = true ∧ s.inputs = List.replicate 2 0x2BC1 ++ [0x0004] := by decide

/-- A configuration each side of the refusal (also the hypothesis of EveryCycleCompletes, NopKeepsEverything,
ResetWritesTheResetValues, SampleRunsTheSamplingTick, CarrierRunsTheToneTick, SampleCarrierIsBothInEitherOrder,
SequencesSplitIntoTwoMachines, ResetMeetsTheInvariant and PhaseAfterHeldBitIsPeriodic). -/
theorem witness_wellformed_configurations :
    Config.default.wf = true ∧ Config.wf { Config.default with adcW := 15, sine := [(0, 7)] } = true ∧
    Config.wf { Config.default with adcW := 2, rxInvert := true } = true ∧
    Config.wf { Config.default with symbolLen := 0 } = false := by decide

theorem witness_op_masks :
    0x3FF8 &&& 0x0007 = 0x0000 ∧ 0x3FF9 &&& 0x0007 = 0x0001 ∧ 0x3FFA &&& 0x0007 = 0x0002 ∧
    0x3FFB &&& 0x0007 = 0x0003 ∧ 0x2BCF &&& 0x0004 = 0x0004 := by decide

theorem witness_NoStepChangesTheConfiguration :
    ∃ t, step { State.reset with inputs := [0x0004] } = .next t := ⟨_, exec_of_wf _ wf_reset⟩

theorem witness_RomHoldsAnyTable :
    (List.replicate 256 (7 : Byte)).length = 256 ∧ Config.default.wf = true := ⟨List.length_replicate, wf_reset⟩

theorem witness_DelayLineHoldsTheCentredSample :
    ((0 : AdcWord).toNat < 2 ^ State.reset.cfg.adcW ∧ ∃ t, exec (.sample 0) State.reset = .next t) ∧
    ((1023 : AdcWord).toNat < 2 ^ State.reset.cfg.adcW ∧ ∃ t, exec (.sampleCarrier 1023 true) State.reset = .next t) :=
  ⟨⟨by decide, _, exec_of_wf _ wf_reset⟩, by decide, _, exec_of_wf _ wf_reset⟩

theorem witness_MixerProductStaysInRange :
    (let rx := { resetRx with last := BitVec.ofInt 15 (-512) };
     -(Config.default.adcMid : Int) ≤ rx.last.toInt ∧ rx.last.toInt ≤ (Config.default.adcMid : Int) - 1 ∧
       rx.last.toInt = -(Config.default.adcMid : Int)) ∧
    (let rx := { resetRx with last := 511 }
     rx.last.toInt = (Config.default.adcMid : Int) - 1) ∧
    centre Config.default 512 = 0 ∧ resetRx.last = 0 := by decide

theorem witness_FilterSectionMovesTowardItsInput :
    (-(2 ^ 30 : Int) ≤ 0 ∧ (0 : Int) ≤ 2 ^ 30 ∧ -(2 ^ 30 : Int) ≤ 3 ∧ (3 : Int) ≤ 2 ^ 30) ∧
    (0 : Int) ≤ 3 ∧ (3 : Int) - 0 < (2 ^ 2 : Nat) ∧
    (0 : Int) + (2 ^ 2 : Nat) ≤ 4 ∧ (4 : Int) ≤ 2 ^ 30 ∧ (-3 : Int) < 0 := by decide

theorem witness_FilterCascadeIsExact : Inv State.reset ∧ ∃ t, exec (.sample 0) State.reset = .next t :=
  ⟨inv_reset, _, exec_of_wf _ wf_reset⟩

theorem witness_BitSyncReadsTheNewFilteredSign :
    runsSample (.sampleCarrier 0 true) = true ∧ ∃ t, exec (.sampleCarrier 0 true) State.reset = .next t :=
  ⟨rfl, _, exec_of_wf _ wf_reset⟩

theorem witness_PulseIndicatorCountsSamples :
    (∃ t, exec (.sample 0) State.reset = .next t) ∧ Config.default.wf = true ∧
    ∀ i ∈ [Instr.sample 0, Instr.nop, Instr.sampleCarrier 1 true], isReset i = false :=
  ⟨⟨_, exec_of_wf _ wf_reset⟩, wf_reset, by decide⟩

theorem witness_IdleLocksOnANegativeSign :
    (∃ t, exec (.sample 512) (tracking .idle 0) = .next t ∧ t.rx.s2.toInt < 0) ∧
    (∃ t, exec (.sample 512) (trackingPositive .idle 0) = .next t ∧ 0 ≤ t.rx.s2.toInt) ∧
    (∃ t, exec (.sample 512) (tracking .trackingMark 0) = .next t) :=
  ⟨⟨_, exec_of_wf _ (wf_stateOf ..), by decide⟩, ⟨_, exec_of_wf _ (wf_stateOf ..), by decide⟩,
   ⟨_, exec_of_wf _ (wf_stateOf ..)⟩⟩

theorem witness_BitCentreLatchesTheSign :
    (∃ t, exec (.sample 512) (tracking .trackingSpace 13) = .next t) ∧
    (tracking .trackingSpace 13).rx.sync ≠ .idle ∧
    (tracking .trackingSpace 13).rx.cnt.toInt + 1 = Config.default.bitCenter ∧
    (tracking .trackingSpace 14).rx.cnt.toInt + 1 ≠ Config.default.bitCenter :=
  ⟨⟨_, exec_of_wf _ (wf_stateOf ..)⟩, by decide, by decide, by decide⟩

theorem witness_CounterWrapsByOneSymbol :
    (∃ t, exec (.sample 512) (tracking .trackingSpace 36) = .next t) ∧
    (tracking .trackingSpace 36).rx.cnt.toInt + 1 > Config.default.edgeHi ∧ Inv (tracking .trackingSpace 36) :=
  ⟨⟨_, exec_of_wf _ (wf_stateOf ..)⟩, by decide,
   ⟨by decide, by decide, by decide, by decide, by decide, by decide, by decide⟩⟩

theorem witness_EdgeInsideTheWindowSwitchesTone :
    (∃ t, exec (.sample 512) (tracking .trackingMark 35) = .next t ∧ t.rx.s2.toInt < 0 ∧
      (tracking .trackingMark 35).rx.cnt.toInt + 1 ≤ Config.default.edgeHi ∧
      Config.default.edgeLo < (tracking .trackingMark 35).rx.cnt.toInt + 1) ∧
    (∃ t, exec (.sample 512) (trackingPositive .trackingSpace 20) = .next t ∧ 0 ≤ t.rx.s2.toInt ∧
      Config.default.edgeLo < (trackingPositive .trackingSpace 20).rx.cnt.toInt + 1) ∧
    (tracking .trackingMark 19).rx.cnt.toInt + 1 ≤ Config.default.edgeLo :=
  ⟨⟨_, exec_of_wf _ (wf_stateOf ..), by decide, by decide, by decide⟩,
   ⟨_, exec_of_wf _ (wf_stateOf ..), by decide, by decide⟩, by decide⟩

theorem witness_SyncChangesOnlyAtLockOrEdge :
    (∃ t, exec (.sample 512) (tracking .idle 0) = .next t ∧ t.rx.sync ≠ (tracking .idle 0).rx.sync) ∧
    (∃ t, exec (.sample 512) (tracking .trackingMark 35) = .next t ∧
      t.rx.sync ≠ (tracking .trackingMark 35).rx.sync) ∧
    (∃ t, exec (.sample 512) (trackingPositive .trackingSpace 20) = .next t ∧
      t.rx.sync ≠ (trackingPositive .trackingSpace 20).rx.sync) :=
  ⟨⟨_, exec_of_wf _ (wf_stateOf ..), by decide⟩, ⟨_, exec_of_wf _ (wf_stateOf ..), by decide⟩,
   ⟨_, exec_of_wf _ (wf_stateOf ..), by decide⟩⟩

theorem witness_SymbolAfterAnEdge :
    (tracking .trackingMark 0).cfg.wf = true ∧ (tracking .trackingMark 0).rx.sync ≠ .idle ∧
    (tracking .trackingMark 0).rx.cnt = 0 ∧
    (∀ i ∈ List.replicate 20 (Instr.sample 512), isReset i = false) ∧
    sampleCount (List.replicate 20 (Instr.sample 512)) ≤ (tracking .trackingMark 0).cfg.edgeLo ∧
    sampleCount (List.replicate 13 (Instr.sample 512)) + 1 = (tracking .trackingMark 0).cfg.bitCenter := by decide

/-- The silent fixed point of V-SMP-5: what a sample of 512 does not move. -/
def silent (u : State) : Prop :=
  u.cfg = Config.default ∧ u.rx.last = 0 ∧ u.rx.s0 = BitVec.ofInt 32 (-1) ∧ u.rx.s1 = BitVec.ofInt 32 (-4) ∧
    u.rx.s2 = BitVec.ofInt 32 (-5)

theorem silent_sample {u : State} (h : silent u) : silent (stateAfter (.sample 512) u) := by
  obtain ⟨hc, hl, h0, h1, h2⟩ := h
  have f0 : filter0 u.cfg 512 u.rx = -1 := by
    unfold filter0 mix
    rw [hc, hl, h0]
    decide
  have f1 : filter1 u.cfg 512 u.rx = -4 := by
    unfold filter1
    rw [f0, hc, h1]
    decide
  have f2 : filter2 u.cfg 512 u.rx = -5 := by
    unfold filter2
    rw [f1, hc, h2]
    decide
  refine ⟨hc, ?_, ?_, ?_, ?_⟩ <;> simp only [stateAfter_rx, rxAfter, sampleTick_last, sampleTick_s0, sampleTick_s1,
    sampleTick_s2, f0, f1, f2]
  rw [hc]
  decide

theorem silent_samples {n : Nat} {s u : State} (h : silent s)
    (hu : execAll (List.replicate n (.sample 512)) s = .next u) : silent u := by
  induction n generalizing s with
  | zero => cases hu; exact h
  | succ n ih =>
    rw [List.replicate_succ, execAll_cons (by rw [h.1]; exact wf_reset)] at hu
    exact ih (silent_sample h) hu

/-- For every number of samples: among them `BIT_CENTER` = 14, `EDGE_HI` = 36 and `EDGE_HI` + 1, at which each clause of
the conclusion applies. -/
theorem witness_FreeRunningCounterCycles (n : Nat) :
    (tracking .trackingSpace 0).cfg.wf = true ∧ (tracking .trackingSpace 0).rx.sync ≠ .idle ∧
    (tracking .trackingSpace 0).rx.cnt = 0 ∧ sampleCount (List.replicate n (Instr.sample 512)) = n ∧
    (∀ i ∈ List.replicate n (Instr.sample 512), isReset i = false) ∧
    ∀ (p : List Instr) (u : State), p <+: List.replicate n (Instr.sample 512) → 0 < sampleCount p →
      execAll p (tracking .trackingSpace 0) = .next u →
      (u.rx.s2.toInt < 0 ↔ (tracking .trackingSpace 0).rx.sync = .trackingSpace) := by
  refine ⟨by decide, by decide, by decide, ?_, fun i hi => ?_, fun p u hp _ hu => ?_⟩
  · simp [sampleCount, List.countP_replicate, runsSample]
  · rw [List.eq_of_mem_replicate hi]; rfl
  · rw [List.prefix_replicate_iff.mp hp |>.2] at hu
    have h := silent_samples ⟨rfl, rfl, rfl, rfl, rfl⟩ hu
    refine ⟨fun _ => rfl, fun _ => ?_⟩
    rw [h.2.2.2.2]
    decide

/-- The three counts at which the clauses of FreeRunningCounterCycles meet. -/
theorem witness_FreeRunningCounterCycles_counts :
    Config.default.bitCenter = sampleCount (List.replicate 14 (Instr.sample 512)) ∧
    Config.default.edgeHi = sampleCount (List.replicate 36 (Instr.sample 512)) ∧
    Config.default.edgeHi + 1 = sampleCount (List.replicate 37 (Instr.sample 512)) := by decide

theorem witness_IdleWhileNoNegativeSign :
    Config.default.wf = true ∧
    ∀ (p : List Instr) (u : State), p <+: [Instr.sample 512] →
      execAll p (State.resetOf Config.default []) = .next u → 0 ≤ u.rx.s2.toInt := by
  refine ⟨wf_reset, fun p u hp hu => ?_⟩
  rcases List.prefix_cons_iff.mp hp with rfl | ⟨q, rfl, hq⟩
  · cases hu; decide
  · obtain rfl := List.prefix_nil.mp hq
    rw [execAll_of_wf (s := State.resetOf Config.default []) _ wf_reset] at hu
    cases hu
    decide

theorem witness_FirstSampleIsNotNegative :
    Config.default.wf = true ∧ sampleCount [Instr.carrier true, Instr.nop] = 0 ∧ runsSample (.sample 0) = true := by
  decide

theorem witness_PhaseNeverJumps :
    (∃ t, exec (.carrier true) State.reset = .next t) ∧ (∃ t, exec (.sampleCarrier 0 false) State.reset = .next t) ∧
    (∃ t, exec .nop State.reset = .next t) ∧ (∃ t, exec (.sample 0) State.reset = .next t) :=
  ⟨⟨_, exec_of_wf _ wf_reset⟩, ⟨_, exec_of_wf _ wf_reset⟩, ⟨_, exec_of_wf _ wf_reset⟩, ⟨_, exec_of_wf _ wf_reset⟩⟩

theorem witness_DutyStaysBelowSixtyFour : ∃ t, exec (.carrier false) State.reset = .next t :=
  ⟨_, exec_of_wf _ wf_reset⟩

theorem witness_DatapathsDoNotReadEachOther :
    ∃ t t', exec (.sampleCarrier 0 true) State.reset = .next t ∧
      exec (.sampleCarrier 0 true) { State.reset with tx := { phase := 9, pwm := 1 } } = .next t' ∧
      State.reset.rx = ({ State.reset with tx := { phase := 9, pwm := 1 } } : State).rx ∧
      rxView (.carrier true) = .nop ∧ txView (.sample 0) = .nop :=
  ⟨_, _, exec_of_wf _ wf_reset, exec_of_wf _ wf_reset, rfl, rfl, rfl⟩

theorem witness_StepKeepsTheInvariant : Inv State.reset ∧ ∃ t, step State.reset = .next t :=
  ⟨inv_reset, _, exec_of_wf _ wf_reset⟩

theorem witness_ReachableStatesMeetTheInvariant : Reachable State.reset := Reachable.reset Config.default [] wf_reset

end Sys2Proof.Tests
end

/-! Scope (00_scope.md): when a configuration is refused, what its ROM can hold, and the independence of the two
datapaths. -/

namespace Sys2Proof.Machine

/-! Refusal (R6, R7, R200) -/

/-- `Config.wf` is the ranges of R6, the conditions (a) to (d) of R7 and the canonical form of the ROM (log 9). -/
theorem config_wf_iff (c : Config) : c.wf = true ↔
    (2 ≤ c.adcW ∧ c.adcW ≤ 15 ∧ c.k0 ≤ 31 ∧ c.k1 ≤ 31 ∧ c.k2 ≤ 31 ∧
      c.phaseIncMark ≤ 65535 ∧ c.phaseIncSpace ≤ 65535 ∧
      (1 ≤ c.bitCenter ∧ c.bitCenter ≤ c.edgeLo) ∧
      (c.edgeLo < c.edgeHi ∧ c.edgeHi ≤ 2 ^ 15 - 2) ∧
      (1 ≤ c.symbolLen ∧ c.symbolLen ≤ c.edgeHi + 1) ∧
      c.edgeHi + 1 < c.bitCenter + c.symbolLen ∧
      Memory.wf c.sine = true) := by
  simp only [Config.wf, Config.rangesOk, Config.bitSyncOk, Bool.and_eq_true, decide_eq_true_eq]
  simp only [adcMaxW, cntW]
  constructor
  · rintro ⟨⟨hnum, hrom⟩, hsync⟩
    simp only [hrom, and_true]
    omega
  · rintro ⟨h1, h2, h3, h4, h5, h6, h7, ha, hb, hc, hd, hrom⟩
    simp only [hrom, and_true]
    omega

/-- A commit refuses exactly an ill-formed configuration. -/
theorem commit_refused_iff {s t : State} {r : Refusal} :
    commit s t = .refused r ↔ r = .illFormedConfiguration ∧ ¬ s.cfg.wf = true := by
  unfold commit
  split
  · simp [*]
  · simp [*, eq_comm]

/-- Settles O10: every operation is one commit, which refuses exactly where `config_wf_iff` fails. -/
theorem onlyIllFormedConfigurationsAreRefused : Obligations.OnlyIllFormedConfigurationsAreRefused := by
  unfold Obligations.OnlyIllFormedConfigurationsAreRefused
  refine ⟨by decide, fun i s r => ?_⟩
  rw [exec_eq_commit, commit_refused_iff, config_wf_iff]

/-! The ROM of a configuration (R6, R50) -/

/-- Canonical ROM contents in place of a configuration's own leave it well-formed. -/
theorem config_wf_with_sine {cfg : Config} (h : cfg.wf = true) {m : Memory} (hm : m.wf = true) :
    Config.wf { cfg with sine := m } = true := by
  rw [config_wf_iff] at h ⊢
  obtain ⟨h1, h2, h3, h4, h5, h6, h7, ha, hb, hc, hd, -⟩ := h
  exact ⟨h1, h2, h3, h4, h5, h6, h7, ha, hb, hc, hd, hm⟩

/-- An index below the first of canonical contents reads as the default table. -/
theorem romRead_of_lt {lo : Nat} {m : Memory} {idx : BitVec 8} (h : idx.toNat < lo) (hm : sineWfFrom lo m = true) :
    romRead m idx = sineUnlisted idx := by
  simp [romRead, lookup_of_lt h hm]

/-- A listed first entry answers its own index and hides no other. -/
theorem romRead_cons (a : Nat) (b : Byte) (m : Memory) (idx : BitVec 8) :
    romRead ((a, b) :: m) idx = if idx.toNat = a then b else romRead m idx := by
  unfold romRead
  split
  · simp [*]
  · have hne : (idx.toNat == a) = false := by simpa
    simp [List.lookup_cons, hne]

/-- The contents built from a table read as its first entry at the first index, and as the rest's elsewhere, whether or
not that entry is listed. -/
theorem romRead_romOfTableFrom_cons {first : Nat} {b : Byte} {rest : List Byte}
    (h : first + 1 + rest.length ≤ 256) (idx : BitVec 8) :
    romRead (romOfTableFrom first (b :: rest)) idx =
      if idx.toNat = first then b else romRead (romOfTableFrom (first + 1) rest) idx := by
  rw [romOfTableFrom]
  split
  · rename_i hb
    split
    · rename_i hidx
      rw [romRead_of_lt (by omega) (romOfTableFrom_wf h), hb, ← hidx, ofNat_toNat_idx]
    · rfl
  · exact romRead_cons first b _ idx

theorem romRead_romOfTableFrom {first : Nat} {table : List Byte} (h : first + table.length ≤ 256) (idx : BitVec 8)
    (hlo : first ≤ idx.toNat) (hhi : idx.toNat - first < table.length) :
    romRead (romOfTableFrom first table) idx = table[idx.toNat - first] := by
  induction table generalizing first with
  | nil => simp at hhi
  | cons b rest ih =>
    simp only [List.length_cons] at h hhi
    rw [romRead_romOfTableFrom_cons (by omega)]
    split
    · simp [*]
    · rw [ih (by omega) (by omega) (by omega), List.getElem_cons, dif_neg (by omega)]
      simp only [Nat.sub_sub]

/-- Settles O13, by induction on the table: each entry reads at its index whether it is listed or is R51's own. -/
theorem romHoldsAnyTable : Obligations.RomHoldsAnyTable := by
  unfold Obligations.RomHoldsAnyTable
  intro table h
  refine ⟨romOfTable_wf table, fun cfg hcfg => config_wf_with_sine hcfg (romOfTable_wf table), fun idx => ?_⟩
  have hidx : idx.toNat < table.length := h ▸ idx.isLt
  rw [romOfTable, List.take_of_length_le h.le]
  exact romRead_romOfTableFrom (by omega) idx (Nat.zero_le _) hidx

/-! Two independent datapaths (R2, R8) -/

/-- The RX registers see of an operation its RX view only. -/
@[simp] theorem rxAfter_rxView (cfg : Config) (rx : RxRegs) (i : Instr) :
    rxAfter cfg rx (rxView i) = rxAfter cfg rx i := by
  cases i <;> rfl

/-- The TX registers see of an operation its TX view only. -/
@[simp] theorem txAfter_txView (cfg : Config) (tx : TxRegs) (i : Instr) :
    txAfter cfg tx (txView i) = txAfter cfg tx i := by
  cases i <;> rfl

theorem rxAfter_of_rxView_nop {i : Instr} (h : rxView i = .nop) (cfg : Config) (rx : RxRegs) :
    rxAfter cfg rx i = rx := by
  rw [← rxAfter_rxView, h, rxAfter]

theorem txAfter_of_txView_nop {i : Instr} (h : txView i = .nop) (cfg : Config) (tx : TxRegs) :
    txAfter cfg tx i = tx := by
  rw [← txAfter_txView, h, txAfter]

/-- The RX registers after a sequence: the RX operations alone, folded over the RX registers alone. -/
theorem foldl_stateAfter_rx (is : List Instr) (s : State) :
    (is.foldl (fun u i => stateAfter i u) s).rx = is.foldl (rxAfter s.cfg) s.rx := by
  induction is generalizing s with
  | nil => rfl
  | cons i is ih => simp [ih]

/-- The TX registers after a sequence: the TX operations alone, folded over the TX registers alone. -/
theorem foldl_stateAfter_tx (is : List Instr) (s : State) :
    (is.foldl (fun u i => stateAfter i u) s).tx = is.foldl (txAfter s.cfg) s.tx := by
  induction is generalizing s with
  | nil => rfl
  | cons i is ih => simp [ih]

/-- Settles O40: each datapath is a fold over its own registers, which its view of the sequence does not change. -/
theorem sequencesSplitIntoTwoMachines : Obligations.SequencesSplitIntoTwoMachines := by
  unfold Obligations.SequencesSplitIntoTwoMachines
  intro is s hwf
  refine ⟨_, _, _, execAll_of_wf is hwf, execAll_of_wf _ hwf, execAll_of_wf _ hwf, ?_, ?_⟩
  · rw [foldl_stateAfter_rx, foldl_stateAfter_rx, List.foldl_map]
    simp only [rxAfter_rxView]
  · rw [foldl_stateAfter_tx, foldl_stateAfter_tx, List.foldl_map]
    simp only [txAfter_txView]

/-- Settles O39: the registers after an operation are `rxAfter` and `txAfter` of the configuration and their own
datapath. -/
theorem datapathsDoNotReadEachOther : Obligations.DatapathsDoNotReadEachOther := by
  unfold Obligations.DatapathsDoNotReadEachOther
  constructor
  · intro i s s' t t' hcfg ht ht'
    obtain ⟨-, rfl⟩ := exec_next ht
    obtain ⟨-, rfl⟩ := exec_next ht'
    exact ⟨fun hrx => by simp [hcfg, hrx], fun htx => by simp [hcfg, htx]⟩
  · intro i s t ht _
    obtain ⟨-, rfl⟩ := exec_next ht
    exact ⟨fun h => rxAfter_of_rxView_nop h s.cfg s.rx, fun h => txAfter_of_txView_nop h s.cfg s.tx⟩

end Sys2Proof.Machine

/-! Architectural state (10_state.md): the reset values of R20 and R35, and the reachable-value invariant of R34, proved
for each datapath over its own registers and put together for an operation, a step and a reachable state. -/

namespace Sys2Proof.Machine

/-! The range of a product of two centred samples (R34(b)) -/

/-- Zero, where reset puts the filter, is in the range of a product. -/
theorem zero_in_productRange {cfg : Config} (h : cfg.wf = true) : productMin cfg ≤ 0 ∧ 0 ≤ productMax cfg := by
  have hmid : (1 : Int) ≤ cfg.adcMid := by exact_mod_cast (adcMid_facts h).1
  unfold productMin productMax
  constructor <;> nlinarith

/-- The range of a product fits in 32 signed bits: `ADC_MID` is at most `2^14`. -/
theorem productRange_fits_acc {cfg : Config} (h : cfg.wf = true) :
    -(2 ^ 31 : Int) ≤ productMin cfg ∧ productMax cfg < (2 ^ 31 : Int) := by
  obtain ⟨hpos, -, hle⟩ := adcMid_facts h
  have hpos' : (1 : Int) ≤ cfg.adcMid := by exact_mod_cast hpos
  have hle' : (cfg.adcMid : Int) ≤ 2 ^ 14 := by exact_mod_cast hle
  unfold productMin productMax
  constructor <;> nlinarith

/-- The product of two integers in `[-M, M-1]` lies in `[-M·(M-1), M²]`. -/
theorem mul_range {M c l : Int} (hc : -M ≤ c ∧ c ≤ M - 1) (hl : -M ≤ l ∧ l ≤ M - 1) :
    -(M * (M - 1)) ≤ c * l ∧ c * l ≤ M * M := by
  obtain ⟨hc0, hc1⟩ := hc
  obtain ⟨hl0, hl1⟩ := hl
  have hM : 1 ≤ M := by omega
  constructor
  · rcases le_total 0 c with h | h
    · calc -(M * (M - 1)) ≤ c * -M := by nlinarith
        _ ≤ c * l := mul_le_mul_of_nonneg_left hl0 h
    · calc -(M * (M - 1)) ≤ c * (M - 1) := by nlinarith
        _ ≤ c * l := mul_le_mul_of_nonpos_left hl1 h
  · nlinarith [mul_nonneg (show 0 ≤ M - c by omega) (show 0 ≤ M + l by omega),
      mul_nonneg (show 0 ≤ M + c by omega) (show 0 ≤ M - l by omega)]

/-- The mixed value is in the range of a product while `LAST` is a centred sample (R103). -/
theorem mix_range {cfg : Config} (h : cfg.wf = true) (a : AdcWord) {rx : RxRegs}
    (hlast : -(cfg.adcMid : Int) ≤ rx.last.toInt ∧ rx.last.toInt ≤ (cfg.adcMid : Int) - 1) :
    productMin cfg ≤ mix cfg a rx ∧ mix cfg a rx ≤ productMax cfg :=
  mul_range (centre_range h a) hlast

/-! The RX half of the invariant -/

/-- What R34(c) and (d) say of the bit-sync registers. -/
structure CountInv (cfg : Config) (rx : RxRegs) : Prop where
  idle   : rx.sync = .idle → rx.cnt = 0
  counts : rx.sync ≠ .idle → 0 ≤ rx.cnt.toInt ∧ rx.cnt.toInt ≤ cfg.edgeHi

/-- What R34(a) to (d) say of the RX registers. -/
structure RxInv (cfg : Config) (rx : RxRegs) : Prop where
  last  : -(cfg.adcMid : Int) ≤ rx.last.toInt ∧ rx.last.toInt ≤ (cfg.adcMid : Int) - 1
  s0    : productMin cfg ≤ rx.s0.toInt ∧ rx.s0.toInt ≤ productMax cfg
  s1    : productMin cfg ≤ rx.s1.toInt ∧ rx.s1.toInt ≤ productMax cfg
  s2    : productMin cfg ≤ rx.s2.toInt ∧ rx.s2.toInt ≤ productMax cfg
  count : CountInv cfg rx

/-- The invariant of R34 is its RX half and the bound on the duty (R34(e)). -/
theorem inv_iff (s : State) : Inv s ↔ RxInv s.cfg s.rx ∧ s.tx.pwm.toNat ≤ 63 := by
  constructor
  · intro h
    exact ⟨⟨h.last, h.s0, h.s1, h.s2, h.idle, h.counts⟩, h.pwm⟩
  · rintro ⟨h, hpwm⟩
    exact ⟨h.last, h.s0, h.s1, h.s2, h.count.idle, h.count.counts, hpwm⟩

theorem Inv.rxInv {s : State} (h : Inv s) : RxInv s.cfg s.rx := ((inv_iff s).mp h).1

theorem rxInv_resetRx {cfg : Config} (h : cfg.wf = true) : RxInv cfg resetRx := by
  have hmid : (1 : Int) ≤ cfg.adcMid := by exact_mod_cast (adcMid_facts h).1
  have hzero := zero_in_productRange h
  refine ⟨?_, hzero, hzero, hzero, fun _ => rfl, fun hne => absurd rfl hne⟩
  have hlast : resetRx.last.toInt = 0 := rfl
  omega

/-! The three filter sections: exact sums in the range of a product (R104(a), R34(b)) -/

/-- A section whose state and input are in the range of a product is the exact sum, and stays in that range. -/
theorem filterSection_exact_in_range {cfg : Config} (hwf : cfg.wf = true) (k : Nat) {S x : Int}
    (hS : productMin cfg ≤ S ∧ S ≤ productMax cfg) (hx : productMin cfg ≤ x ∧ x ≤ productMax cfg) :
    filterSection k S x = S + asr (x - S) k ∧
    productMin cfg ≤ filterSection k S x ∧ filterSection k S x ≤ productMax cfg := by
  obtain ⟨hlo, hhi⟩ := productRange_fits_acc hwf
  exact filterSection_between hS hx hlo hhi

section Filter

variable {cfg : Config} {rx : RxRegs} (hwf : cfg.wf = true) (h : RxInv cfg rx) (a : AdcWord)
include hwf h

theorem filter0_exact_in_range :
    filter0 cfg a rx = rx.s0.toInt + asr (mix cfg a rx - rx.s0.toInt) cfg.k0 ∧
    productMin cfg ≤ filter0 cfg a rx ∧ filter0 cfg a rx ≤ productMax cfg :=
  filterSection_exact_in_range hwf _ h.s0 (mix_range hwf a h.last)

theorem filter1_exact_in_range :
    filter1 cfg a rx = rx.s1.toInt + asr (filter0 cfg a rx - rx.s1.toInt) cfg.k1 ∧
    productMin cfg ≤ filter1 cfg a rx ∧ filter1 cfg a rx ≤ productMax cfg :=
  filterSection_exact_in_range hwf _ h.s1 (filter0_exact_in_range hwf h a).2

theorem filter2_exact_in_range :
    filter2 cfg a rx = rx.s2.toInt + asr (filter1 cfg a rx - rx.s2.toInt) cfg.k2 ∧
    productMin cfg ≤ filter2 cfg a rx ∧ filter2 cfg a rx ≤ productMax cfg :=
  filterSection_exact_in_range hwf _ h.s2 (filter1_exact_in_range hwf h a).2

end Filter

/-! What a sampling tick stores of each section reads back as that section's integer, whatever the registers held
(R104). -/

theorem sampleTick_s0_toInt (cfg : Config) (a : AdcWord) (rx : RxRegs) :
    (sampleTick cfg a rx).s0.toInt = filter0 cfg a rx := toInt_filterSection ..

theorem sampleTick_s1_toInt (cfg : Config) (a : AdcWord) (rx : RxRegs) :
    (sampleTick cfg a rx).s1.toInt = filter1 cfg a rx := toInt_filterSection ..

theorem sampleTick_s2_toInt (cfg : Config) (a : AdcWord) (rx : RxRegs) :
    (sampleTick cfg a rx).s2.toInt = filter2 cfg a rx := toInt_filterSection ..

/-! The bit-sync step (R34(c), (d)) -/

/-- A tracking step stays in a tracking state. -/
theorem trackStep_sync_ne_idle (cfg : Config) (neg : Bool) {rx : RxRegs} (h : rx.sync ≠ .idle) :
    (trackStep cfg neg rx).sync ≠ .idle := by
  obtain ⟨-, hs, -⟩ | ⟨-, -, -, hs, -⟩ | ⟨-, -, hs, -⟩ := trackStep_cases cfg neg rx
  · rwa [hs]
  · rw [hs]; exact otherTone_ne_idle h
  · rwa [hs]

/-- A tracking step keeps the counter in `[0, EDGE_HI]`: a wrap happens at `EDGE_HI + 1` only, which is not less than
`SYMBOL_LEN` (R7(c)), an edge restarts it, and an increment is short of a wrap. -/
theorem trackStep_cnt_range {cfg : Config} (hwf : cfg.wf = true) (neg : Bool) {rx : RxRegs}
    (h : 0 ≤ rx.cnt.toInt ∧ rx.cnt.toInt ≤ cfg.edgeHi) :
    0 ≤ (trackStep cfg neg rx).cnt.toInt ∧ (trackStep cfg neg rx).cnt.toInt ≤ cfg.edgeHi := by
  obtain ⟨-, -, -, -, -, -, -, hhi, hsym1, hsym, -⟩ := wf_facts hwf
  have hn : nextCount rx = rx.cnt.toInt + 1 := rfl
  obtain ⟨hgt, -, hcnt⟩ | ⟨-, -, -, -, hcnt⟩ | ⟨hle, -, -, hcnt⟩ := trackStep_cases cfg neg rx
  · rw [hcnt, toInt_countWord (by omega) (by omega)]
    omega
  · rw [hcnt]
    exact ⟨le_refl _, Int.natCast_nonneg _⟩
  · rw [hcnt, toInt_countWord (by omega) (by omega)]
    omega

/-- The bit-sync step keeps what R34(c) and (d) say of its registers. -/
theorem bitSync_keeps_countInv {cfg : Config} (hwf : cfg.wf = true) (neg : Bool) {rx : RxRegs}
    (h : CountInv cfg rx) : CountInv cfg (bitSync cfg neg rx) := by
  by_cases hs : rx.sync = .idle
  · rw [bitSync_idle cfg neg hs]
    cases neg with
    | false => exact h
    | true => exact ⟨fun _ => rfl, fun _ => ⟨le_refl _, Int.natCast_nonneg _⟩⟩
  · rw [bitSync_tracking cfg neg hs]
    exact ⟨fun hidle => absurd hidle (trackStep_sync_ne_idle cfg neg hs),
      fun _ => trackStep_cnt_range hwf neg (h.counts hs)⟩

/-! The operations -/

/-- The sampling tick keeps the RX half of the invariant. -/
theorem sampleTick_keeps_rxInv {cfg : Config} (hwf : cfg.wf = true) (a : AdcWord) {rx : RxRegs}
    (h : RxInv cfg rx) : RxInv cfg (sampleTick cfg a rx) where
  last := by
    rw [sampleTick_last, toInt_centre hwf]
    exact centre_range hwf a
  s0 := by rw [sampleTick_s0_toInt]; exact (filter0_exact_in_range hwf h a).2
  s1 := by rw [sampleTick_s1_toInt]; exact (filter1_exact_in_range hwf h a).2
  s2 := by rw [sampleTick_s2_toInt]; exact (filter2_exact_in_range hwf h a).2
  count :=
    have hb := bitSync_keeps_countInv hwf (negOf (filter2 cfg a rx)) h.count
    ⟨hb.idle, hb.counts⟩

/-- Every operation keeps the RX half of the invariant. -/
theorem rxAfter_keeps_rxInv {cfg : Config} (hwf : cfg.wf = true) {rx : RxRegs} (h : RxInv cfg rx) (i : Instr) :
    RxInv cfg (rxAfter cfg rx i) := by
  cases i with
  | nop => exact h
  | sample a => exact sampleTick_keeps_rxInv hwf a h
  | carrier t => exact h
  | sampleCarrier a t => exact sampleTick_keeps_rxInv hwf a h
  | reset => exact rxInv_resetRx hwf

/-- A carrier tick leaves a duty of at most 63, whatever the ROM holds (R164). -/
theorem carrierTick_pwm_le (cfg : Config) (t : Bool) (tx : TxRegs) : (carrierTick cfg t tx).pwm.toNat ≤ 63 := by
  rw [carrierTick_pwm, attenuate_toNat]
  omega

/-- Every operation keeps the bound on the duty (R34(e)). -/
theorem txAfter_keeps_pwm_le (cfg : Config) {tx : TxRegs} (h : tx.pwm.toNat ≤ 63) (i : Instr) :
    (txAfter cfg tx i).pwm.toNat ≤ 63 := by
  cases i with
  | nop => exact h
  | sample a => exact h
  | carrier t => exact carrierTick_pwm_le cfg t tx
  | sampleCarrier a t => exact carrierTick_pwm_le cfg t tx
  | reset => simp [txAfter, resetTx]

/-- Every operation keeps the invariant of R34: each datapath keeps its half. -/
theorem stateAfter_keeps_inv {s : State} (hwf : s.cfg.wf = true) (h : Inv s) (i : Instr) : Inv (stateAfter i s) :=
  (inv_iff _).mpr ⟨rxAfter_keeps_rxInv hwf h.rxInv i, txAfter_keeps_pwm_le s.cfg h.pwm i⟩

/-- The host's side of a cycle touches no register. -/
theorem consumeWord_inv {s : State} (h : Inv s) : Inv (consumeWord s) := (inv_iff _).mpr ((inv_iff s).mp h)

/-- Settles O42: a step is one operation, and every operation keeps the RX half and the bound on the duty. -/
theorem stepKeepsTheInvariant : Obligations.StepKeepsTheInvariant := by
  unfold Obligations.StepKeepsTheInvariant
  intro s t h hst
  obtain ⟨hwf, rfl⟩ := step_next hst
  exact stateAfter_keeps_inv (s := consumeWord s) hwf (consumeWord_inv h) _

/-! Reset and the reachable states (R20, R34, R35) -/

/-- Settles O41: reset leaves zeros in the RX registers, `Idle` with counter 0, and the duty 32. -/
theorem resetMeetsTheInvariant : Obligations.ResetMeetsTheInvariant := by
  unfold Obligations.ResetMeetsTheInvariant
  intro cfg words hwf
  exact (inv_iff _).mpr ⟨rxInv_resetRx hwf, by simp [resetTx]⟩

/-- Every reachable state runs under a well-formed configuration (R237). -/
theorem Reachable.cfg_wf {s : State} (h : Reachable s) : s.cfg.wf = true := by
  induction h with
  | reset cfg words hwf => exact hwf
  | step _ hst ih =>
    obtain ⟨-, rfl⟩ := step_next hst
    exact ih

/-- Every reachable state meets the invariant of R34: reset does, and every step keeps it. -/
theorem Reachable.inv {s : State} (h : Reachable s) : Inv s := by
  induction h with
  | reset cfg words hwf => exact resetMeetsTheInvariant cfg words hwf
  | step _ hst ih => exact stepKeepsTheInvariant _ _ ih hst

/-- Settles O43: the invariant by induction over the steps from reset, and with it the three filter sections are exact
sums. -/
theorem reachableStatesMeetTheInvariant : Obligations.ReachableStatesMeetTheInvariant := by
  unfold Obligations.ReachableStatesMeetTheInvariant
  intro s h
  refine ⟨h.inv, fun a => ?_⟩
  have hrx := h.inv.rxInv
  exact ⟨(filter0_exact_in_range h.cfg_wf hrx a).1, (filter1_exact_in_range h.cfg_wf hrx a).1,
    (filter2_exact_in_range h.cfg_wf hrx a).1⟩

/-- Settles O17: `State.reset` is written with the table's values. -/
theorem resetStateHoldsTheTable : Obligations.ResetStateHoldsTheTable := by
  unfold Obligations.ResetStateHoldsTheTable
  exact ⟨rfl, rfl, rfl, rfl, rfl⟩

end Sys2Proof.Machine

/-! Memory and the step (20_memory.md): the operation a word selects, the run of a schedule of words, and the default
sine table. -/

namespace Sys2Proof

/-! The operation a word selects, by its low three bits (R71) -/

section Strobes

variable {adcW w : Nat}

theorem decodeWord_of_no_strobe (h : w % 8 = 0) : decodeWord adcW w = .nop := by
  have hbits : w / 4 % 2 = 0 ∧ w / 2 % 2 = 0 ∧ w % 2 = 0 := by omega
  simp [decodeWord, rstField_eq, carrierStrobe_eq, sampleStrobe_eq, hbits]

theorem decodeWord_of_sample_strobe (h : w % 8 = 1) : decodeWord adcW w = .sample (adcSampleField adcW w) := by
  have hbits : w / 4 % 2 = 0 ∧ w / 2 % 2 = 0 ∧ w % 2 = 1 := by omega
  simp [decodeWord, rstField_eq, carrierStrobe_eq, sampleStrobe_eq, hbits]

theorem decodeWord_of_carrier_strobe (h : w % 8 = 2) : decodeWord adcW w = .carrier (txBitField w) := by
  have hbits : w / 4 % 2 = 0 ∧ w / 2 % 2 = 1 ∧ w % 2 = 0 := by omega
  simp [decodeWord, rstField_eq, carrierStrobe_eq, sampleStrobe_eq, hbits]

theorem decodeWord_of_both_strobes (h : w % 8 = 3) :
    decodeWord adcW w = .sampleCarrier (adcSampleField adcW w) (txBitField w) := by
  have hbits : w / 4 % 2 = 0 ∧ w / 2 % 2 = 1 ∧ w % 2 = 1 := by omega
  simp [decodeWord, rstField_eq, carrierStrobe_eq, sampleStrobe_eq, hbits]

theorem decodeWord_of_rst (h : 4 ≤ w % 8) : decodeWord adcW w = .reset := by
  have hbit : w / 4 % 2 = 1 := by omega
  simp [decodeWord, rstField_eq, hbit]

end Strobes

/-! The input word of a well-formed operation decodes to it (R72, R78) -/

/-- The field `in[ADC_W+3:4]` of a word built on a raw sample in range, whatever its low four bits. -/
theorem adcSampleField_of_operand {adcW : Nat} {a : AdcWord} (ha : a.toNat < 2 ^ adcW) {low : Nat} (hlow : low < 16) :
    adcSampleField adcW (a.toNat * 2 ^ 4 + low) = a := by
  have hdiv : (a.toNat * 2 ^ 4 + low) / 2 ^ 4 = a.toNat := by omega
  rw [adcSampleField, hdiv, Nat.mod_eq_of_lt ha, BitVec.ofNat_toNat, BitVec.setWidth_eq]

theorem decodeWord_encode {adcW : Nat} {i : Instr} (h : i.wf adcW = true) : decodeWord adcW (encode i) = i := by
  cases i with
  | nop => exact decodeWord_of_no_strobe rfl
  | sample a =>
    rw [decodeWord_of_sample_strobe (by simp only [encode]; omega), encode,
      adcSampleField_of_operand (of_decide_eq_true h) (by decide)]
  | carrier t => cases t <;> exact decodeWord_of_carrier_strobe rfl
  | sampleCarrier a t =>
    have ht : t.toNat < 2 := Bool.toNat_lt t
    have hbit : txBitField (encode (.sampleCarrier a t)) = t := by
      rw [txBitField_eq, encode]
      cases t <;> simp <;> omega
    rw [decodeWord_of_both_strobes (by simp only [encode]; omega), hbit, encode, Nat.add_assoc,
      adcSampleField_of_operand (of_decide_eq_true h) (by omega)]
  | reset => exact decodeWord_of_rst (by decide)

/-- The input word of a well-formed operation has no bit above the port's lines (R70). -/
theorem encode_lt_port {adcW : Nat} {i : Instr} (h : i.wf adcW = true) : encode i < 2 ^ (adcW + 4) := by
  cases i with
  | nop => exact Laws.EncodeFitsPort.nop adcW h
  | sample a => exact Laws.EncodeFitsPort.sample a adcW h
  | carrier t => exact Laws.EncodeFitsPort.carrier t adcW h
  | sampleCarrier a t => exact Laws.EncodeFitsPort.sampleCarrier a t adcW h
  | reset => exact Laws.EncodeFitsPort.reset adcW h

/-- A word that decodes is decoded by `decodeWord`. -/
theorem decode_ok {adcW w : Nat} {i : Instr} (h : decode adcW w = .ok i) : decodeWord adcW w = i := by
  unfold decode at h
  split at h
  · exact Except.ok.inj h
  · cases h

end Sys2Proof

namespace Sys2Proof.Machine

/-! One cycle (R58, R71) -/

/-- The operation a driven word selects under a configuration: the decoder on the port's lines (R70, R71). -/
def wordInstr (cfg : Config) (w : InputWord) : Instr := decodeWord cfg.adcW (portValue cfg w)

theorem step_eq_exec (s : State) : step s = exec (wordInstr s.cfg (currentWord s)) (consumeWord s) := rfl

/-- Under a well-formed configuration every cycle completes (R200). -/
theorem step_of_wf {s : State} (h : s.cfg.wf = true) :
    step s = .next (stateAfter (wordInstr s.cfg (currentWord s)) (consumeWord s)) :=
  exec_of_wf _ (s := consumeWord s) h

theorem currentWord_of_scheduled {s : State} {w : InputWord} {ws : List InputWord} (h : s.inputs = w :: ws) :
    currentWord s = w := by
  simp only [currentWord, h]

theorem currentWord_of_unscheduled {s : State} (h : s.inputs = []) : currentWord s = hostWord s.cycle := by
  simp only [currentWord, h]

/-- Settles O7: `step` is `exec` of the word of the cycle, scheduled or free, on the state without that word. -/
theorem stepRunsTheDecodedOperation : Obligations.StepRunsTheDecodedOperation := by
  unfold Obligations.StepRunsTheDecodedOperation
  constructor
  · intro s w rest i hin hi
    rw [step_eq_exec, currentWord_of_scheduled hin, wordInstr, portValue, decode_ok hi, consumeWord, hin,
      List.tail_cons]
  · intro s i hin hi
    rw [step_eq_exec, currentWord_of_unscheduled hin, wordInstr, portValue, decode_ok hi, consumeWord, hin,
      List.tail_nil, ← hin]

/-! A run over a schedule (R58, R75, R234, R240) -/

/-- A run over scheduled words, whatever they are, is the operations they select in order, one per cycle. -/
theorem runCycles_scheduled (ws : List InputWord) {s : State} {rest : List InputWord} (hwf : s.cfg.wf = true)
    (h : s.inputs = ws ++ rest) :
    runCycles ws.length s =
      execAll (ws.map (wordInstr s.cfg)) { s with inputs := rest, cycle := s.cycle + ws.length } := by
  induction ws generalizing s with
  | nil =>
    subst h
    rfl
  | cons w ws ih =>
    have hstep : step s = .next (stateAfter (wordInstr s.cfg w) (consumeWord s)) := by
      rw [step_of_wf hwf, currentWord_of_scheduled h]
    have hrest : (stateAfter (wordInstr s.cfg w) (consumeWord s)).inputs = ws ++ rest := by simp [h]
    rw [List.length_cons, runCycles_succ hstep,
      ih (s := stateAfter (wordInstr s.cfg w) (consumeWord s)) hwf hrest]
    simp [execAll_cons, hwf, stateAfter, Nat.add_assoc, Nat.add_comm 1]

/-- The word scheduled for a well-formed operation selects that operation. -/
theorem wordInstr_encode {cfg : Config} (hwf : cfg.wf = true) {i : Instr} (hi : i.wf cfg.adcW = true) :
    wordInstr cfg (BitVec.ofNat 19 (encode i)) = i := by
  obtain ⟨-, hadc, -⟩ := (config_wf_iff cfg).mp hwf
  have hport : encode i < 2 ^ (cfg.adcW + 4) := encode_lt_port hi
  have hword : encode i < 2 ^ 19 := hport.trans_le (Nat.pow_le_pow_right (by decide) (by omega))
  rw [wordInstr, portValue, BitVec.toNat_ofNat, Nat.mod_eq_of_lt hword, Nat.mod_eq_of_lt hport, decodeWord_encode hi]

/-- Settles O8: the words select the operations they encode, and a run over any schedule is the operations its words
select. -/
theorem scheduledWordsRunTheirOperations : Obligations.ScheduledWordsRunTheirOperations := by
  unfold Obligations.ScheduledWordsRunTheirOperations
  intro is s rest hwf his hin
  have hwords : (is.map fun i => BitVec.ofNat 19 (encode i)).map (wordInstr s.cfg) = is := by
    rw [List.map_map]
    exact (List.map_congr_left fun i hi => wordInstr_encode hwf (his i hi)).trans (List.map_id is)
  simpa only [hwords, List.length_map] using runCycles_scheduled _ hwf hin

/-! The default table (R51, R52): its shape as equations of lists, and each entry as a read -/

/-- The default table holds, at an index, what a read of the unprogrammed ROM answers there. -/
theorem defaultSine_getElem? {n : Nat} (h : n < 256) :
    defaultSine[n]? = some (romRead [] (BitVec.ofNat 8 n)) := by
  have hlt : n < defaultSine.length := by rwa [defaultSine_length]
  rw [List.getElem?_eq_getElem hlt, romRead_nil, sineUnlisted]
  simp only [BitVec.toNat_ofNat, Nat.mod_eq_of_lt h]

/-- What holds of every entry of the table with its index holds of every read. -/
theorem romRead_default_of_zipIdx {P : Byte × Nat → Prop} (h : ∀ e ∈ defaultSine.zipIdx, P e) (i : BitVec 8) :
    P (romRead [] i, i.toNat) := by
  refine h _ (List.mk_mem_zipIdx_iff_getElem?.mpr ?_)
  rw [defaultSine_getElem? i.isLt, ofNat_toNat_idx]

/-- The largest entry, 255, stands at 61 to 67 only (R52). -/
theorem romRead_default_eq_max_iff (i : BitVec 8) : romRead [] i = 255 ↔ 61 ≤ i.toNat ∧ i.toNat ≤ 67 :=
  romRead_default_of_zipIdx (P := fun e => e.1 = 255 ↔ 61 ≤ e.2 ∧ e.2 ≤ 67) (by decide +kernel) i

/-- The smallest entry, 1, stands at 189 to 195 only (R52). -/
theorem romRead_default_eq_min_iff (i : BitVec 8) : romRead [] i = 1 ↔ 189 ≤ i.toNat ∧ i.toNat ≤ 195 :=
  romRead_default_of_zipIdx (P := fun e => e.1 = 1 ↔ 189 ≤ e.2 ∧ e.2 ≤ 195) (by decide +kernel) i

theorem romRead_default_pos (i : BitVec 8) : 1 ≤ (romRead [] i).toNat :=
  romRead_default_of_zipIdx (P := fun e => 1 ≤ e.1.toNat) (by decide +kernel) i

/-- The second half wave is the first one mirrored at mid-scale (R52). -/
theorem defaultSine_second_half :
    (defaultSine.drop 128).map BitVec.toNat = (defaultSine.take 128).map fun b => 256 - b.toNat := by decide +kernel

theorem romRead_default_half_wave {j : Nat} (h : j ≤ 127) :
    (romRead [] (BitVec.ofNat 8 (128 + j))).toNat = 256 - (romRead [] (BitVec.ofNat 8 j)).toNat := by
  have hj := congrArg (fun l => l[j]?) defaultSine_second_half
  rwa [List.getElem?_map, List.getElem?_map, List.getElem?_drop, List.getElem?_take_of_lt (by omega),
    defaultSine_getElem? (by omega), defaultSine_getElem? (by omega), Option.map_some, Option.map_some,
    Option.some_inj] at hj

/-- The entries up to the crest at 64, read backwards, are those from the crest on (R52). -/
theorem defaultSine_crest : (defaultSine.take 65).reverse = (defaultSine.drop 64).take 65 := by decide +kernel

theorem romRead_default_quarter_wave {j : Nat} (h : j ≤ 64) :
    romRead [] (BitVec.ofNat 8 (64 - j)) = romRead [] (BitVec.ofNat 8 (64 + j)) := by
  have hlen : (defaultSine.take 65).length = 65 := by simp [defaultSine_length]
  have hj := congrArg (fun l => l[j]?) defaultSine_crest
  rwa [List.getElem?_reverse (by omega), hlen, List.getElem?_take_of_lt (by omega),
    List.getElem?_take_of_lt (by omega), List.getElem?_drop, defaultSine_getElem? (by omega),
    defaultSine_getElem? (by omega), Option.some_inj] at hj

/-- Reading every index in order gives the table. -/
theorem map_romRead_range :
    ((List.range 256).map fun i => romRead [] (BitVec.ofNat 8 i)) = defaultSine := by
  refine List.ext_getElem? fun n => ?_
  by_cases hn : n < 256
  · rw [List.getElem?_map, List.getElem?_range hn, defaultSine_getElem? hn, Option.map_some]
  · rw [List.getElem?_eq_none (by simpa using hn), List.getElem?_eq_none (by rw [defaultSine_length]; omega)]

/-- The entries have no offset from mid-scale in the mean (R52). -/
theorem romRead_default_sum :
    ((List.range 256).map fun i => (romRead [] (BitVec.ofNat 8 i)).toNat).sum = 256 * 128 := by
  have htable : (defaultSine.map BitVec.toNat).sum = 256 * 128 := by decide +kernel
  rwa [← map_romRead_range, List.map_map] at htable

/-- The duties of the default table are 0 to 63, each attained (R52). -/
theorem default_duty_attained_iff (d : Nat) :
    (∃ i : BitVec 8, (attenuate (romRead [] i)).toNat = d) ↔ d ≤ 63 := by
  simp only [attenuate_toNat]
  constructor
  · rintro ⟨i, rfl⟩
    have := (romRead [] i).isLt
    omega
  · intro hd
    have hall : ∀ d < 64, d ∈ defaultSine.map fun b => b.toNat / 4 := by decide +kernel
    have hmem := hall d (by omega)
    rw [← map_romRead_range, List.map_map, List.mem_map] at hmem
    obtain ⟨n, -, hn⟩ := hmem
    exact ⟨BitVec.ofNat 8 n, hn⟩

/-- Settles O14: the table's extremes, its half-wave and quarter-wave symmetry, its sum and its duties, each read from
the literal table of R51. -/
theorem defaultTableProperties : Obligations.DefaultTableProperties := by
  unfold Obligations.DefaultTableProperties
  exact ⟨by decide, ⟨fun i => ⟨Nat.le_of_lt_succ (romRead [] i).isLt, romRead_default_eq_max_iff i⟩,
    fun i => ⟨romRead_default_pos i, romRead_default_eq_min_iff i⟩⟩, fun j => romRead_default_half_wave,
    fun j => romRead_default_quarter_wave, romRead_default_sum, default_duty_attained_iff, by decide⟩

end Sys2Proof.Machine

/-! Encoding (30_encoding.md): the decoder against the encoder and the opcode map, the operands of every word of the
port, the output ports and the pseudo-operations. -/

namespace Sys2Proof

/-! A number is decoded exactly when the port can carry it (R70, log 11) -/

theorem decode_of_lt {adcW w : Nat} (h : w < 2 ^ (adcW + 4)) : decode adcW w = .ok (decodeWord adcW w) := if_pos h

theorem decode_of_ge {adcW w : Nat} (h : 2 ^ (adcW + 4) ≤ w) : decode adcW w = .error .widerThanPort :=
  if_neg h.not_gt

/-- The encoder's word is a word of the port, and it selects the operation it was made from. -/
theorem decode_encode {adcW : Nat} {i : Instr} (h : i.wf adcW = true) : decode adcW (encode i) = .ok i := by
  rw [decode_of_lt (encode_lt_port h), decodeWord_encode h]

/-- Settles O5: `decode_encode` under every `ADC_W`. -/
theorem decodeOfEncodeIsTheOperation : Obligations.DecodeOfEncodeIsTheOperation := by
  unfold Obligations.DecodeOfEncodeIsTheOperation
  exact fun adcW i h => decode_encode h

/-- Settles O4: the words of R78 are the encoder's, and the word of P5 has `rst` set over a SAMPLE_CARRIER. -/
theorem specWordsDecode : Obligations.SpecWordsDecode := by
  unfold Obligations.SpecWordsDecode
  have hP5 : decode 10 0x2BCF = .ok .reset := by rw [decode_of_lt (by decide), decodeWord_of_rst (by decide)]
  exact ⟨decode_encode (i := .sample 700) (by decide), decode_encode (i := .carrier true) (by decide),
    decode_encode (i := .sampleCarrier 512 false) (by decide), decode_encode (i := .reset) (by decide),
    decode_encode (i := .nop) (by decide), hP5⟩

/-! The five patterns of the low three bits (R71) -/

/-- Settles O1: one lemma per pattern, the operand fields written as R70 does. -/
theorem decodeFollowsStrobes : Obligations.DecodeFollowsStrobes := by
  unfold Obligations.DecodeFollowsStrobes
  intro adcW w
  rw [← txBitField_eq]
  exact ⟨decodeWord_of_no_strobe, decodeWord_of_sample_strobe, decodeWord_of_carrier_strobe,
    decodeWord_of_both_strobes, decodeWord_of_rst⟩

/-- The low three bits show one of the five patterns of R71. -/
theorem strobe_patterns (w : Nat) : w % 8 = 0 ∨ w % 8 = 1 ∨ w % 8 = 2 ∨ w % 8 = 3 ∨ 4 ≤ w % 8 := by omega

/-- A row with the mask 0x0007 matches on the three strobe bits. -/
theorem selects_strobes (mnemonic : String) (bits w : Nat) :
    OpcodeRow.selects ⟨mnemonic, bits, 0x0007⟩ w = decide (w % 8 = bits) := by
  simp only [OpcodeRow.selects, and_seven]

/-- A row with the mask 0x0004 matches on `rst` alone. -/
theorem selects_rst (mnemonic : String) (w : Nat) :
    OpcodeRow.selects ⟨mnemonic, 0x0004, 0x0004⟩ w = decide (4 ≤ w % 8) := by
  simp only [OpcodeRow.selects, and_four]

/-- The row of the opcode map an operation belongs to (R72). -/
def opcodeRowOf : Instr → OpcodeRow
  | .nop               => ⟨"NOP", 0x0000, 0x0007⟩
  | .sample _          => ⟨"SAMPLE", 0x0001, 0x0007⟩
  | .carrier _         => ⟨"CARRIER", 0x0002, 0x0007⟩
  | .sampleCarrier _ _ => ⟨"SAMPLE_CARRIER", 0x0003, 0x0007⟩
  | .reset             => ⟨"RESET", 0x0004, 0x0004⟩

theorem opcodeRowOf_mnemonic (i : Instr) : (opcodeRowOf i).mnemonic = i.mnemonic := by cases i <;> rfl

/-- The row of the decoded operation is the one row that matches. -/
theorem opcodeMap_filter_selects (adcW w : Nat) :
    (opcodeMap.filter fun r => r.selects w) = [opcodeRowOf (decodeWord adcW w)] := by
  simp only [opcodeMap, List.filter_cons, List.filter_nil, selects_strobes, selects_rst]
  rcases strobe_patterns w with h | h | h | h | h
  · simp [h, decodeWord_of_no_strobe h, opcodeRowOf]
  · simp [h, decodeWord_of_sample_strobe h, opcodeRowOf]
  · simp [h, decodeWord_of_carrier_strobe h, opcodeRowOf]
  · simp [h, decodeWord_of_both_strobes h, opcodeRowOf]
  · have hlow : w % 8 ≠ 0 ∧ w % 8 ≠ 1 ∧ w % 8 ≠ 2 ∧ w % 8 ≠ 3 := by omega
    simp [h, hlow, decodeWord_of_rst h, opcodeRowOf]

/-- Settles O2: the one matching row carries the mnemonic of the operation it belongs to. -/
theorem opcodeMapSelectsOneRow : Obligations.OpcodeMapSelectsOneRow := by
  unfold Obligations.OpcodeMapSelectsOneRow
  exact ⟨rfl, fun adcW w => ⟨_, opcodeMap_filter_selects adcW w, opcodeRowOf_mnemonic _⟩⟩

/-! The fields an operation reads (R70, R73, R74, U4) -/

theorem adcSampleField_congr {adcW v w : Nat} (h : v / 16 % 2 ^ adcW = w / 16 % 2 ^ adcW) :
    adcSampleField adcW v = adcSampleField adcW w :=
  congrArg (BitVec.ofNat 15) h

theorem txBitField_congr {v w : Nat} (h : v / 8 % 2 = w / 8 % 2) : txBitField v = txBitField w := by
  rw [txBitField_eq, txBitField_eq, h]

/-- Settles O3: along the patterns of R71, each operation's fields agree because the strobes that read them are set. -/
theorem ignoredFieldsHaveNoEffect : Obligations.IgnoredFieldsHaveNoEffect := by
  unfold Obligations.IgnoredFieldsHaveNoEffect
  intro adcW v w hop hT hA
  simp only [rstField_eq, carrierStrobe_eq, sampleStrobe_eq, decide_eq_true_eq, decide_eq_false_iff_not] at hT hA
  rcases strobe_patterns v with h | h | h | h | h
  · rw [decodeWord_of_no_strobe h, decodeWord_of_no_strobe (hop ▸ h)]
  · rw [decodeWord_of_sample_strobe h, decodeWord_of_sample_strobe (hop ▸ h),
      adcSampleField_congr (hA (by omega) (by omega))]
  · rw [decodeWord_of_carrier_strobe h, decodeWord_of_carrier_strobe (hop ▸ h),
      txBitField_congr (hT (by omega) (by omega))]
  · rw [decodeWord_of_both_strobes h, decodeWord_of_both_strobes (hop ▸ h),
      adcSampleField_congr (hA (by omega) (by omega)), txBitField_congr (hT (by omega) (by omega))]
  · rw [decodeWord_of_rst h, decodeWord_of_rst (hop ▸ h)]

/-- The field `in[ADC_W+3:4]` holds a raw sample in range (R73). -/
theorem adcSampleField_lt (adcW w : Nat) : (adcSampleField adcW w).toNat < 2 ^ adcW := by
  rw [adcSampleField, BitVec.toNat_ofNat]
  exact (Nat.mod_le _ _).trans_lt (Nat.mod_lt _ (Nat.two_pow_pos adcW))

/-- Every word selects an operation with its operands in range. -/
theorem decodeWord_wf (adcW w : Nat) : (decodeWord adcW w).wf adcW = true := by
  have hA : decide ((adcSampleField adcW w).toNat < 2 ^ adcW) = true := decide_eq_true (adcSampleField_lt adcW w)
  rcases strobe_patterns w with h | h | h | h | h
  · rw [decodeWord_of_no_strobe h, Instr.wf]
  · rw [decodeWord_of_sample_strobe h, Instr.wf, hA]
  · rw [decodeWord_of_carrier_strobe h, Instr.wf]
  · rw [decodeWord_of_both_strobes h, Instr.wf, hA]
  · rw [decodeWord_of_rst h, Instr.wf]

/-- Settles O6: the two sides of the port's width, and the operands in range on both. -/
theorem everyPortWordDecodesWellFormed : Obligations.EveryPortWordDecodesWellFormed := by
  unfold Obligations.EveryPortWordDecodesWellFormed
  exact fun adcW w _ => ⟨decode_of_lt, decodeWord_wf adcW w, decode_of_ge⟩

end Sys2Proof

namespace Sys2Proof.Machine

/-! The output ports (R76, R77) -/

/-- Settles O44: the four equations of `outPorts`. -/
theorem portsShowTheRegisters : Obligations.PortsShowTheRegisters := by
  unfold Obligations.PortsShowTheRegisters
  exact fun s => ⟨rfl, rfl, rfl, rfl⟩

theorem encodeSync_ne_three (sync : Sync) : encodeSync sync ≠ 0b11#2 := by cases sync <;> decide

/-- Settles O45: the port shows the code of a value of `SYNC`, and no value has the code 0b11. -/
theorem syncStateCodes : Obligations.SyncStateCodes := by
  unfold Obligations.SyncStateCodes
  exact ⟨rfl, rfl, rfl, fun s => encodeSync_ne_three s.rx.sync⟩

/-! The pseudo-operations (R79) -/

/-- Settles O46: `expand` line by line, its copies the standard library's. -/
theorem pseudoOperationsExpand : Obligations.PseudoOperationsExpand := by
  unfold Obligations.PseudoOperationsExpand
  intro n as t i body rest
  rw [← copies_singleton .nop, ← copies_singleton (.carrier t), ← copies_eq_flatten]
  exact ⟨rfl, rfl, rfl, rfl, rfl⟩

end Sys2Proof.Machine

/-! Demodulator (40_demodulator.md): centring and the delay line, the mixer, the filter cascade, the hand-off to
bit-sync and the pulse indicator. -/

namespace Sys2Proof.Machine

/-! The operations that run the sampling tick (R71, R100) -/

/-- What an operation that samples `a` does to the RX registers when it completes. -/
theorem exec_sampling_rx {i : Instr} {a : AdcWord} (hi : i = .sample a ∨ ∃ b, i = .sampleCarrier a b) {s t : State}
    (h : exec i s = .next t) : s.cfg.wf = true ∧ t.rx = sampleTick s.cfg a s.rx := by
  obtain ⟨hwf, rfl⟩ := exec_next h
  obtain rfl | ⟨b, rfl⟩ := hi
  · exact ⟨hwf, rfl⟩
  · exact ⟨hwf, rfl⟩

/-- An operation that runs the sampling tick runs it on some operand. -/
theorem exec_runsSample_rx {i : Instr} (hi : runsSample i = true) {s t : State} (h : exec i s = .next t) :
    ∃ a, t.rx = sampleTick s.cfg a s.rx := by
  obtain ⟨-, rfl⟩ := exec_next h
  obtain ⟨a, ha⟩ := rxAfter_of_samples hi
  exact ⟨a, ha s.cfg s.rx⟩

/-! Centring (R101) and the delay line (R102) -/

/-- The centred sample in the arithmetic of the operand's field (R73, R101). -/
theorem centre_eq (cfg : Config) (a : AdcWord) :
    centre cfg a = ((a.toNat % 2 ^ cfg.adcW : Nat) : Int) - (cfg.adcMid : Int) := rfl

theorem centre_of_lt {cfg : Config} {a : AdcWord} (h : a.toNat < 2 ^ cfg.adcW) :
    centre cfg a = (a.toNat : Int) - (cfg.adcMid : Int) := by
  rw [centre_eq, Nat.mod_eq_of_lt h]

theorem centre_ofNat {cfg : Config} (hwf : cfg.wf = true) {n : Nat} (h : n < 2 ^ cfg.adcW) :
    centre cfg (BitVec.ofNat 15 n) = (n : Int) - (cfg.adcMid : Int) := by
  obtain ⟨-, hadc, -⟩ := wf_facts hwf
  have hn : (BitVec.ofNat 15 n).toNat = n :=
    Nat.mod_eq_of_lt (h.trans_le (Nat.pow_le_pow_right (by decide) hadc))
  rw [centre_of_lt (hn.symm ▸ h), hn]

/-- The lowest raw sample is centred to the low end. -/
theorem centre_zero (cfg : Config) : centre cfg 0 = -(cfg.adcMid : Int) := by
  rw [centre_of_lt (Nat.two_pow_pos _)]
  exact zero_sub _

/-- The midpoint is centred to zero. -/
theorem centre_adcMid {cfg : Config} (hwf : cfg.wf = true) : centre cfg (BitVec.ofNat 15 cfg.adcMid) = 0 := by
  obtain ⟨hpos, hpow, -⟩ := adcMid_facts hwf
  rw [centre_ofNat hwf (by omega), sub_self]

/-- The highest raw sample is centred to the high end. -/
theorem centre_max {cfg : Config} (hwf : cfg.wf = true) :
    centre cfg (BitVec.ofNat 15 (2 ^ cfg.adcW - 1)) = (cfg.adcMid : Int) - 1 := by
  obtain ⟨hpos, hpow, -⟩ := adcMid_facts hwf
  rw [centre_ofNat hwf (by omega)]
  omega

theorem sampleTick_last_toInt {cfg : Config} (hwf : cfg.wf = true) (a : AdcWord) (rx : RxRegs) :
    (sampleTick cfg a rx).last.toInt = centre cfg a := toInt_centre hwf a

/-- Settles O19: `LAST` reads back as the centred sample, which keeps the operand's distance from the midpoint. -/
theorem delayLineHoldsTheCentredSample : Obligations.DelayLineHoldsTheCentredSample := by
  unfold Obligations.DelayLineHoldsTheCentredSample
  refine ⟨fun s t i a hi ha ht => ?_, fun cfg hwf => ⟨centre_zero cfg, centre_adcMid hwf, centre_max hwf⟩⟩
  obtain ⟨hwf, hrx⟩ := exec_sampling_rx hi ht
  rw [hrx, sampleTick_last_toInt hwf]
  exact ⟨centre_of_lt ha, centre_range hwf a⟩

/-- Settles O18: the completed state is `stateAfter`, whose registers read back as the pseudocode's integers. -/
theorem sampleRunsTheSamplingTick : Obligations.SampleRunsTheSamplingTick := by
  unfold Obligations.SampleRunsTheSamplingTick
  constructor
  · intro s a hwf
    exact ⟨stateAfter (.sample a) s, exec_of_wf _ hwf, sampleTick_last_toInt hwf a s.rx,
      sampleTick_s0_toInt s.cfg a s.rx, sampleTick_s1_toInt s.cfg a s.rx, sampleTick_s2_toInt s.cfg a s.rx,
      sampleTick_sync s.cfg a s.rx, sampleTick_cnt s.cfg a s.rx, sampleTick_rxb s.cfg a s.rx,
      sampleTick_tgl s.cfg a s.rx, rfl, rfl, rfl, rfl, fun _ => rfl⟩
  · intro adcW w hop
    rw [and_seven] at hop
    exact decodeWord_of_sample_strobe hop

/-! The mixer (R103) -/

/-- Half the range of `2·ADC_W` signed bits is twice the largest product. -/
theorem two_pow_product_width {cfg : Config} (hwf : cfg.wf = true) :
    ((2 ^ (2 * cfg.adcW - 1) : Nat) : Int) = 2 * productMax cfg := by
  obtain ⟨hadc, -⟩ := wf_facts hwf
  have hwidth : 2 * cfg.adcW - 1 = (cfg.adcW - 1) + (cfg.adcW - 1) + 1 := by omega
  rw [hwidth, productMax, Config.adcMid]
  push_cast
  ring

/-- The range of a product fits in `2·ADC_W` signed bits. -/
theorem productRange_fits_width {cfg : Config} (hwf : cfg.wf = true) :
    -((2 ^ (2 * cfg.adcW - 1) : Nat) : Int) ≤ productMin cfg ∧
    productMax cfg < ((2 ^ (2 * cfg.adcW - 1) : Nat) : Int) := by
  have hmid : (1 : Int) ≤ cfg.adcMid := by exact_mod_cast (adcMid_facts hwf).1
  rw [two_pow_product_width hwf, productMin, productMax]
  constructor <;> nlinarith

theorem mix_of_zero_factor {cfg : Config} {a : AdcWord} {rx : RxRegs} (h : centre cfg a = 0 ∨ rx.last = 0) :
    mix cfg a rx = 0 := by
  obtain h | h := h
  · rw [mix, h, zero_mul]
  · rw [mix, h]
    exact mul_zero _

/-- Settles O20: the product is in `mix_range`, and each end is the product of two ends of the centred range. -/
theorem mixerProductStaysInRange : Obligations.MixerProductStaysInRange := by
  unfold Obligations.MixerProductStaysInRange
  intro cfg hwf
  refine ⟨fun a rx hlo hhi => ?_, fun a rx => mix_of_zero_factor, fun rx hlast => ?_, fun rx hlast => ?_,
    fun rx hlast => ?_⟩
  · obtain ⟨hmin, hmax⟩ := mix_range hwf a ⟨hlo, hhi⟩
    obtain ⟨hfitMin, hfitMax⟩ := productRange_fits_width hwf
    exact ⟨rfl, hmin, hmax, hfitMin.trans hmin, hmax.trans_lt hfitMax⟩
  · rw [mix, centre_zero, hlast, neg_mul_neg, productMax]
  · rw [mix, centre_zero, hlast, neg_mul, productMin]
  · rw [mix, centre_max hwf, hlast, mul_neg, mul_comm, productMin]

/-! The filter sections (R104) -/

/-- A section whose state and input are well inside 32 bits is the exact sum. -/
theorem filterSection_exact {S x : Int} (hS : -(2 ^ 30 : Int) ≤ S ∧ S ≤ 2 ^ 30) (hx : -(2 ^ 30 : Int) ≤ x ∧ x ≤ 2 ^ 30)
    (k : Nat) : filterSection k S x = S + asr (x - S) k :=
  (filterSection_between hS hx (by norm_num) (by norm_num)).1

/-- The shift takes a difference below `2^k` to 0 (R104(b)). -/
theorem asr_of_lt {v : Int} {k : Nat} (h0 : 0 ≤ v) (h1 : v < (2 ^ k : Nat)) : asr v k = 0 :=
  Int.ediv_eq_zero_of_lt h0 h1

/-- The shift takes a difference of `2^k` or more to at least 1 (R104(b)). -/
theorem one_le_asr {v : Int} {k : Nat} (h : ((2 ^ k : Nat) : Int) ≤ v) : 1 ≤ asr v k := by
  rw [asr, Int.le_ediv_iff_mul_le (Int.natCast_pos.mpr (Nat.two_pow_pos k)), one_mul]
  exact h

/-- The shift rounds a negative difference down to at most -1 (R104(b)). -/
theorem asr_neg {v : Int} (h : v < 0) (k : Nat) : asr v k < 0 :=
  Int.ediv_neg_of_neg_of_pos h (Int.natCast_pos.mpr (Nat.two_pow_pos k))

/-- Settles O21: a section moves by the shifted difference, so each clause is what the shift does to a difference. -/
theorem filterSectionMovesTowardItsInput : Obligations.FilterSectionMovesTowardItsInput := by
  unfold Obligations.FilterSectionMovesTowardItsInput
  intro k S x hS0 hS1 hx0 hx1
  have hexact := filterSection_exact ⟨hS0, hS1⟩ ⟨hx0, hx1⟩
  have hself := filterSection_exact ⟨hS0, hS1⟩ ⟨hS0, hS1⟩ k
  obtain ⟨hup, hdown⟩ := asr_between (x - S) k
  rw [hexact k, hexact 0, hself, asr_zero, sub_self, asr_of_lt le_rfl (Int.natCast_pos.mpr (Nat.two_pow_pos k))]
  refine ⟨fun hle hshort => ?_, fun hfar => ?_, fun hle => ?_, fun hlt => ?_, by omega, add_zero S⟩
  · rw [asr_of_lt (by omega) hshort, add_zero]
  · have := one_le_asr (v := x - S) (k := k) (by omega)
    omega
  · have := hup (by omega)
    omega
  · have hneg := asr_neg (v := x - S) (by omega) k
    have := hdown (by omega)
    omega

/-- Settles O22: the three sections of the tick are exact and in range in turn, each fed by the one before it. -/
theorem filterCascadeIsExact : Obligations.FilterCascadeIsExact := by
  unfold Obligations.FilterCascadeIsExact
  intro s t i a hinv hi ht
  obtain ⟨hwf, hrx⟩ := exec_sampling_rx hi ht
  rw [hrx, sampleTick_s0_toInt, sampleTick_s1_toInt, sampleTick_s2_toInt]
  obtain ⟨hsum0, hrange0⟩ := filter0_exact_in_range hwf hinv.rxInv a
  obtain ⟨hsum1, hrange1⟩ := filter1_exact_in_range hwf hinv.rxInv a
  obtain ⟨hsum2, hrange2⟩ := filter2_exact_in_range hwf hinv.rxInv a
  exact ⟨hsum0, hsum1, hsum2, hrange0, hrange1, hrange2⟩

/-! The hand-off to bit-sync (R105, R106) -/

/-- Settles O23: the new `S2` reads back as the filtered value, whose sign the tick passes to bit-sync. -/
theorem bitSyncReadsTheNewFilteredSign : Obligations.BitSyncReadsTheNewFilteredSign := by
  unfold Obligations.BitSyncReadsTheNewFilteredSign
  intro s t i hi ht
  obtain ⟨a, hrx⟩ := exec_runsSample_rx hi ht
  rw [hrx, sampleTick_s2_toInt]
  exact ⟨sampleTick_sync s.cfg a s.rx, sampleTick_cnt s.cfg a s.rx, sampleTick_rxb s.cfg a s.rx⟩

/-! The pulse indicator (R107) -/

/-- An operation other than RESET inverts `TGL` exactly when it runs the sampling tick. -/
theorem rxAfter_tgl {i : Instr} (hr : isReset i = false) (cfg : Config) (rx : RxRegs) :
    (rxAfter cfg rx i).tgl = xor rx.tgl (runsSample i) := by
  cases hi : runsSample i with
  | false => rw [rxAfter_of_idle hi hr, Bool.xor_false]
  | true =>
    obtain ⟨a, ha⟩ := rxAfter_of_samples hi
    rw [ha, sampleTick_tgl, Bool.xor_true]

theorem bodd_sampleCount_cons (i : Instr) (is : List Instr) :
    (sampleCount (i :: is)).bodd = xor (runsSample i) (sampleCount is).bodd := by
  cases hi : runsSample i <;> simp [sampleCount, hi]

/-- Operations other than RESET invert `TGL` once for every sampling tick among them. -/
theorem foldl_rxAfter_tgl {is : List Instr} (hr : ∀ i ∈ is, isReset i = false) (cfg : Config) (rx : RxRegs) :
    (is.foldl (rxAfter cfg) rx).tgl = xor rx.tgl (sampleCount is).bodd := by
  induction is generalizing rx with
  | nil => exact (Bool.xor_false rx.tgl).symm
  | cons i is ih =>
    obtain ⟨hri, hris⟩ := List.forall_mem_cons.mp hr
    rw [List.foldl_cons, ih hris, rxAfter_tgl hri, bodd_sampleCount_cons, Bool.xor_assoc]

/-- Settles O24: the tick inverts `TGL`, so from reset, where it is 0, it holds the parity of the ticks. -/
theorem pulseIndicatorCountsSamples : Obligations.PulseIndicatorCountsSamples := by
  unfold Obligations.PulseIndicatorCountsSamples
  constructor
  · intro s t i hi ht
    obtain ⟨a, hrx⟩ := exec_runsSample_rx hi ht
    rw [hrx, sampleTick_tgl]
  · intro cfg words is hwf hr
    refine ⟨_, execAll_of_wf is hwf, ?_⟩
    have htgl : (is.foldl (rxAfter cfg) resetRx).tgl = (sampleCount is).bodd :=
      (foldl_rxAfter_tgl hr cfg resetRx).trans (Bool.false_xor _)
    rw [foldl_stateAfter_rx, resetOf_cfg, resetOf_rx, htgl, Nat.mod_two_of_bodd, Bool.toNat_eq_zero]

end Sys2Proof.Machine

/-! Bit-sync (41_bit_sync.md): what a sampling tick does in `Idle` and in a tracking state, and what a sequence of
operations does to the counter, the tone and `RXB`. -/

namespace Sys2Proof.Machine

/-! The conditions of the step in the sign of the filtered value (R30, R133, R135) -/

/-- A sign disagrees with the tracked tone where it is not negative exactly in `TrackingSpace`. -/
theorem mismatch_iff {sync : Sync} (h : sync ≠ .idle) (neg : Bool) :
    mismatch sync neg = true ↔ ¬(neg = true ↔ sync = .trackingSpace) := by
  cases sync with
  | idle => exact absurd rfl h
  | trackingMark => simp [mismatch]
  | trackingSpace => simp [mismatch]

theorem latchedBit_sign (cfg : Config) (v : Int) :
    latchedBit cfg (decide (v < 0)) = xor (decide (0 ≤ v)) cfg.rxInvert := by
  simp [latchedBit, ← decide_not]

/-! One operation -/

/-- An operation that neither samples nor resets leaves the RX registers. -/
theorem exec_keeps_rx {i : Instr} (hi : runsSample i = false) (hr : isReset i = false) {s t : State}
    (h : exec i s = .next t) : t.rx = s.rx := by
  obtain ⟨-, rfl⟩ := exec_next h
  exact rxAfter_of_idle hi hr s.cfg s.rx

section SamplingTick

variable {i : Instr} {s t : State} (hi : runsSample i = true)
include hi

/-- In `Idle` a negative filtered value locks onto `TrackingSpace` (R131). -/
theorem exec_idle_of_neg (hs : s.rx.sync = .idle) (ht : exec i s = .next t) (hneg : t.rx.s2.toInt < 0) :
    t.rx.sync = .trackingSpace ∧ t.rx.cnt = 0 ∧ t.rx.rxb = s.rx.rxb := by
  have hb := bitSyncReadsTheNewFilteredSign s t i hi ht
  rwa [bitSync_idle _ _ hs, if_pos (decide_eq_true hneg)] at hb

/-- In `Idle` any other filtered value changes nothing (R131). -/
theorem exec_idle_of_nonneg (hs : s.rx.sync = .idle) (ht : exec i s = .next t) (hpos : 0 ≤ t.rx.s2.toInt) :
    t.rx.sync = .idle ∧ t.rx.cnt = s.rx.cnt ∧ t.rx.rxb = s.rx.rxb := by
  have hb := bitSyncReadsTheNewFilteredSign s t i hi ht
  rw [bitSync_idle _ _ hs, if_neg (by simpa using hpos)] at hb
  obtain ⟨hsync, hrest⟩ := hb
  exact ⟨hsync.trans hs, hrest⟩

/-- In a tracking state the tick runs the tracking step on the sign of the new `S2` (R130). -/
theorem exec_tracking (hs : s.rx.sync ≠ .idle) (ht : exec i s = .next t) :
    t.rx.sync = (trackStep s.cfg (decide (t.rx.s2.toInt < 0)) s.rx).sync ∧
    t.rx.cnt = (trackStep s.cfg (decide (t.rx.s2.toInt < 0)) s.rx).cnt ∧
    t.rx.rxb = (trackStep s.cfg (decide (t.rx.s2.toInt < 0)) s.rx).rxb := by
  have hb := bitSyncReadsTheNewFilteredSign s t i hi ht
  rwa [bitSync_tracking _ _ hs] at hb

/-- Everything a tick in a tracking state can do to the tone and the counter, in integers: wrap (R134), a confirmed
edge, or an increment (R135). -/
theorem exec_tracking_cases (hs : s.rx.sync ≠ .idle) (ht : exec i s = .next t) :
    (s.cfg.edgeHi < s.rx.cnt.toInt + 1 ∧
      t.rx.sync = s.rx.sync ∧ t.rx.cnt.toInt = s.rx.cnt.toInt + 1 - s.cfg.symbolLen) ∨
    (s.cfg.edgeLo < s.rx.cnt.toInt + 1 ∧ s.rx.cnt.toInt + 1 ≤ s.cfg.edgeHi ∧
      ¬(t.rx.s2.toInt < 0 ↔ s.rx.sync = .trackingSpace) ∧ t.rx.sync = otherTone s.rx.sync ∧ t.rx.cnt = 0) ∨
    (s.rx.cnt.toInt + 1 ≤ s.cfg.edgeHi ∧
      (s.rx.cnt.toInt + 1 ≤ s.cfg.edgeLo ∨ (t.rx.s2.toInt < 0 ↔ s.rx.sync = .trackingSpace)) ∧
      t.rx.sync = s.rx.sync ∧ t.rx.cnt.toInt = s.rx.cnt.toInt + 1) := by
  obtain ⟨hwf, -⟩ := exec_next ht
  obtain ⟨-, -, -, -, -, -, -, hhi, hsym1, hsym, -⟩ := wf_facts hwf
  have hn : nextCount s.rx = s.rx.cnt.toInt + 1 := rfl
  have hmin := s.rx.cnt.le_toInt
  have hmax := s.rx.cnt.toInt_lt
  obtain ⟨hsync, hcnt, -⟩ := exec_tracking hi hs ht
  obtain ⟨hgt, hsync', hcnt'⟩ | ⟨hle, hlo, hmis, hsync', hcnt'⟩ | ⟨hle, hno, hsync', hcnt'⟩ :=
    trackStep_cases s.cfg (decide (t.rx.s2.toInt < 0)) s.rx
  · refine .inl ⟨hgt, hsync.trans hsync', ?_⟩
    rw [hcnt, hcnt', toInt_countWord (by omega) (by omega), hn]
  · rw [mismatch_iff hs, decide_eq_true_eq] at hmis
    exact .inr (.inl ⟨hlo, hle, hmis, hsync.trans hsync', hcnt.trans hcnt'⟩)
  · rw [mismatch_iff hs, decide_eq_true_eq, not_and_or, not_not, not_lt] at hno
    refine .inr (.inr ⟨hle, hno, hsync.trans hsync', ?_⟩)
    rw [hcnt, hcnt', toInt_countWord (by omega) (by omega), hn]

/-- A tick in a tracking state latches the sign at the bit centre (R133). -/
theorem exec_tracking_rxb_centre (hs : s.rx.sync ≠ .idle) (ht : exec i s = .next t)
    (hn : s.rx.cnt.toInt + 1 = s.cfg.bitCenter) :
    t.rx.rxb = xor (decide (0 ≤ t.rx.s2.toInt)) s.cfg.rxInvert := by
  obtain ⟨-, -, hrxb⟩ := exec_tracking hi hs ht
  rw [hrxb, trackStep_rxb, ← latchedBit_sign]
  exact if_pos hn

/-- A tick in a tracking state keeps `RXB` off the bit centre (R133). -/
theorem exec_tracking_rxb_off_centre (hs : s.rx.sync ≠ .idle) (ht : exec i s = .next t)
    (hn : s.rx.cnt.toInt + 1 ≠ s.cfg.bitCenter) : t.rx.rxb = s.rx.rxb := by
  obtain ⟨-, -, hrxb⟩ := exec_tracking hi hs ht
  rw [hrxb, trackStep_rxb]
  exact if_neg hn

/-- A tick in a tracking state stays in a tracking state (R131). -/
theorem exec_tracking_sync_ne_idle (hs : s.rx.sync ≠ .idle) (ht : exec i s = .next t) : t.rx.sync ≠ .idle := by
  obtain ⟨hsync, -⟩ := exec_tracking hi hs ht
  rw [hsync]
  exact trackStep_sync_ne_idle _ _ hs

/-- Short of the window the counter takes `n` and the tone is kept, whatever the sign (R135). -/
theorem exec_tracking_of_le_edgeLo (hs : s.rx.sync ≠ .idle) (ht : exec i s = .next t)
    (hn : s.rx.cnt.toInt + 1 ≤ s.cfg.edgeLo) :
    t.rx.sync = s.rx.sync ∧ t.rx.cnt.toInt = s.rx.cnt.toInt + 1 := by
  obtain ⟨hwf, -⟩ := exec_next ht
  obtain ⟨-, -, -, -, -, -, hwin, -⟩ := wf_facts hwf
  obtain ⟨hgt, -⟩ | ⟨hlo, -⟩ | ⟨-, -, hcount⟩ := exec_tracking_cases hi hs ht
  · omega
  · omega
  · exact hcount

end SamplingTick

/-- Settles O25: the two cases of the `Idle` step, and a tracking step never answers `Idle`. -/
theorem idleLocksOnANegativeSign : Obligations.IdleLocksOnANegativeSign := by
  unfold Obligations.IdleLocksOnANegativeSign
  constructor
  · intro s t i hi hs ht
    exact ⟨exec_idle_of_neg hi hs ht, exec_idle_of_nonneg hi hs ht⟩
  · intro s t i hr hs ht
    cases hi : runsSample i with
    | false => rwa [exec_keeps_rx hi hr ht]
    | true => exact exec_tracking_sync_ne_idle hi hs ht

/-- Settles O26: the bit centre is short of the edge window (R7(a)), so the counter takes `n` there. -/
theorem bitCentreLatchesTheSign : Obligations.BitCentreLatchesTheSign := by
  unfold Obligations.BitCentreLatchesTheSign
  intro s t i hi hs ht
  refine ⟨fun hn => ?_, exec_tracking_rxb_off_centre hi hs ht⟩
  obtain ⟨hwf, -⟩ := exec_next ht
  obtain ⟨-, -, -, -, -, hcentre, -⟩ := wf_facts hwf
  obtain ⟨hsync, hcnt⟩ := exec_tracking_of_le_edgeLo hi hs ht (by omega)
  exact ⟨exec_tracking_rxb_centre hi hs ht hn, hsync, hcnt.trans hn⟩

/-- Settles O27: past `EDGE_HI` only the wrap is left, and R34(d) bounds the counter before it by `EDGE_HI`. -/
theorem counterWrapsByOneSymbol : Obligations.CounterWrapsByOneSymbol := by
  unfold Obligations.CounterWrapsByOneSymbol
  intro s t i hi hs ht hn
  obtain ⟨-, hsync, hcnt⟩ | ⟨-, hle, -⟩ | ⟨hle, -⟩ := exec_tracking_cases hi hs ht
  · refine ⟨hcnt, hsync, fun hinv => ?_⟩
    obtain ⟨-, hmax⟩ := hinv.counts hs
    omega
  · omega
  · omega

/-- Settles O28: short of a wrap the tick is an edge or an increment, told apart by the window and the sign. -/
theorem edgeInsideTheWindowSwitchesTone : Obligations.EdgeInsideTheWindowSwitchesTone := by
  unfold Obligations.EdgeInsideTheWindowSwitchesTone
  intro s t i hi hs ht hn
  obtain ⟨hgt, -⟩ | ⟨hlo, -, hmis, hsync, hcnt⟩ | ⟨-, hno, hcount⟩ := exec_tracking_cases hi hs ht
  · omega
  · refine ⟨fun ⟨_, hmark, _⟩ => ⟨by rw [hsync, hmark, otherTone], hcnt⟩,
      fun ⟨_, hspace, _⟩ => ⟨by rw [hsync, hspace, otherTone], hcnt⟩, fun hagree => ?_⟩
    obtain hle | ⟨hmark, hpos⟩ | ⟨hspace, hneg⟩ := hagree
    · omega
    · exact absurd (by simpa [hmark] using hpos) hmis
    · exact absurd (by simpa [hspace] using hneg) hmis
  · refine ⟨fun ⟨hlo, hmark, hneg⟩ => ?_, fun ⟨hlo, hspace, hpos⟩ => ?_, fun _ => hcount⟩
    · have hspace := (hno.resolve_left (by omega)).mp hneg
      rw [hmark] at hspace
      cases hspace
    · have hneg := (hno.resolve_left (by omega)).mpr hspace
      omega

/-- Settles O29: of all that an operation other than RESET can do, only a lock and an edge write `SYNC`. -/
theorem syncChangesOnlyAtLockOrEdge : Obligations.SyncChangesOnlyAtLockOrEdge := by
  unfold Obligations.SyncChangesOnlyAtLockOrEdge
  intro s t i hr ht hne
  cases hi : runsSample i with
  | false => exact absurd (by rw [exec_keeps_rx hi hr ht]) hne
  | true =>
    refine ⟨rfl, ?_⟩
    by_cases hs : s.rx.sync = .idle
    · obtain hneg | hpos := lt_or_ge t.rx.s2.toInt 0
      · obtain ⟨hsync, hcnt, -⟩ := exec_idle_of_neg hi hs ht hneg
        exact ⟨hcnt, .inl ⟨hs, hsync, hneg⟩⟩
      · obtain ⟨hsync, -⟩ := exec_idle_of_nonneg hi hs ht hpos
        exact absurd (hsync.trans hs.symm) hne
    · obtain ⟨-, hsync, -⟩ | ⟨hlo, hhi, hmis, hsync, hcnt⟩ | ⟨-, -, hsync, -⟩ := exec_tracking_cases hi hs ht
      · exact absurd hsync hne
      · refine ⟨hcnt, .inr ⟨hlo, hhi, ?_⟩⟩
        cases htone : s.rx.sync with
        | idle => exact absurd htone hs
        | trackingMark => exact .inl ⟨rfl, by simpa [htone] using hmis, by rw [hsync, htone, otherTone]⟩
        | trackingSpace => exact .inr ⟨rfl, by simpa [htone] using hmis, by rw [hsync, htone, otherTone]⟩
      · exact absurd hsync hne

/-! Sequences of operations -/

/-- Induction over the prefixes of a sequence that all complete: what holds before it and is kept by each of its
operations holds after it. -/
theorem execAll_prefix_induction {s : State} (hwf : s.cfg.wf = true) (is : List Instr) {P : List Instr → State → Prop}
    (h0 : P [] s)
    (hstep : ∀ p i t u, p ++ [i] <+: is → execAll p s = .next t → exec i t = .next u →
      execAll (p ++ [i]) s = .next u → P p t → P (p ++ [i]) u) :
    ∃ t, execAll is s = .next t ∧ P is t := by
  obtain ⟨t, ht, hP⟩ := execAll_induction (P := fun p t => p <+: is → P p t) hwf (fun _ => h0)
    (fun p i t ht ih hp => by
      have hu : exec i t = .next (stateAfter i t) := exec_of_wf i (by rwa [execAll_cfg ht hwf])
      exact hstep p i t _ hp ht hu ((execAll_snoc ht).trans hu) (ih ((List.prefix_append p [i]).trans hp))) is
  exact ⟨t, ht, hP List.prefix_rfl⟩

theorem sampleCount_snoc (p : List Instr) (i : Instr) :
    sampleCount (p ++ [i]) = sampleCount p + if runsSample i = true then 1 else 0 := by
  rw [sampleCount, List.countP_append, List.countP_singleton, sampleCount]

/-- Induction over the sampling ticks of a sequence without RESET: what holds of the RX registers after no tick and is
carried by each tick to the next number of ticks holds after the sequence. -/
theorem execAll_tick_induction {s : State} (hwf : s.cfg.wf = true) {is : List Instr}
    (hr : ∀ i ∈ is, isReset i = false) {P : Nat → RxRegs → Prop} (h0 : P 0 s.rx)
    (htick : ∀ p i t u, p ++ [i] <+: is → execAll p s = .next t → runsSample i = true → exec i t = .next u →
      execAll (p ++ [i]) s = .next u → P (sampleCount p) t.rx → P (sampleCount p + 1) u.rx) :
    ∃ t, execAll is s = .next t ∧ P (sampleCount is) t.rx := by
  refine execAll_prefix_induction (P := fun p t => P (sampleCount p) t.rx) hwf is h0 fun p i t u hp ht hu hpu ih => ?_
  rw [sampleCount_snoc]
  cases hi : runsSample i with
  | false =>
    rw [exec_keeps_rx hi (hr i (hp.subset (by simp))) hu]
    exact ih
  | true => exact htick p i t u hp ht hi hu hpu ih

/-- The RX registers `k` sampling ticks after `rx`, where `rx` tracks a tone at counter 0 and `k` is short of the edge
window: the tone is kept, the counter counts the ticks, and `RXB` waits for the bit centre (R137(b), (c)). -/
structure CountingFrom (cfg : Config) (rx : RxRegs) (k : Nat) (rx' : RxRegs) : Prop where
  sync : rx'.sync = rx.sync
  cnt  : rx'.cnt.toInt = k
  rxb  : k < cfg.bitCenter → rx'.rxb = rx.rxb

/-- A tick short of the edge window is one more tick counted. -/
theorem CountingFrom.tick {rx : RxRegs} {k : Nat} {i : Instr} {t u : State} (hi : runsSample i = true)
    (hs : rx.sync ≠ .idle) (h : CountingFrom t.cfg rx k t.rx) (hk : k + 1 ≤ t.cfg.edgeLo)
    (hu : exec i t = .next u) : CountingFrom t.cfg rx (k + 1) u.rx := by
  have hst : t.rx.sync ≠ .idle := h.sync ▸ hs
  have hcnt := h.cnt
  obtain ⟨hsync', hcnt'⟩ := exec_tracking_of_le_edgeLo hi hst hu (by omega)
  refine ⟨hsync'.trans h.sync, by omega, fun hlt => ?_⟩
  exact (exec_tracking_rxb_off_centre hi hst hu (by omega)).trans (h.rxb (by omega))

/-- Settles O30, by induction over the ticks: each leaves the registers counting, and the counter says which of them is
at the bit centre. -/
theorem symbolAfterAnEdge : Obligations.SymbolAfterAnEdge := by
  unfold Obligations.SymbolAfterAnEdge
  intro s is hwf hs hcnt hr hle
  obtain ⟨t, ht, hcount⟩ := execAll_tick_induction
    (P := fun k rx => k ≤ s.cfg.edgeLo → CountingFrom s.cfg s.rx k rx) hwf hr
    (fun _ => ⟨rfl, by rw [hcnt]; rfl, fun _ => rfl⟩)
    (fun p i t u _ ht hi hu _ ih hk => by
      rw [← execAll_cfg ht hwf] at ih hk ⊢
      exact (ih (by omega)).tick hi hs hk hu)
  have hc := execAll_cfg ht hwf
  obtain ⟨hsync, hticks, hrxb⟩ := hcount hle
  refine ⟨t, ht, hsync, hticks, hrxb, fun i hi hnext => ?_⟩
  have hu := exec_of_wf i (s := t) (by rwa [hc])
  refine ⟨_, hu, ?_⟩
  rw [exec_tracking_rxb_centre hi (hsync ▸ hs) hu (by rw [hc]; omega), hc]

/-! The free run (R134, R137(f)) -/

/-- The counter `k` ticks after 0 where no edge is accepted: up to `EDGE_HI`, then round the last `SYMBOL_LEN` counts. -/
def freeCount (cfg : Config) (k : Nat) : Nat :=
  if k ≤ cfg.edgeHi then k
  else cfg.edgeHi + 1 - cfg.symbolLen + (k - (cfg.edgeHi + 1)) % cfg.symbolLen

theorem freeCount_of_le {cfg : Config} {k : Nat} (h : k ≤ cfg.edgeHi) : freeCount cfg k = k := if_pos h

theorem freeCount_of_lt {cfg : Config} {k : Nat} (h : cfg.edgeHi < k) :
    freeCount cfg k = cfg.edgeHi + 1 - cfg.symbolLen + (k - (cfg.edgeHi + 1)) % cfg.symbolLen := if_neg (by omega)

theorem freeCount_le_edgeHi {cfg : Config} (hwf : cfg.wf = true) (k : Nat) : freeCount cfg k ≤ cfg.edgeHi := by
  obtain ⟨-, -, -, -, -, -, -, -, hsym1, hsym, -⟩ := wf_facts hwf
  obtain h | h := le_or_gt k cfg.edgeHi
  · rwa [freeCount_of_le h]
  · rw [freeCount_of_lt h]
    have := Nat.mod_lt (k - (cfg.edgeHi + 1)) hsym1
    omega

/-- One more tick of the free run: an increment, or at `EDGE_HI` a step back by one symbol. -/
theorem freeCount_succ {cfg : Config} (hwf : cfg.wf = true) (k : Nat) :
    freeCount cfg (k + 1) =
      if freeCount cfg k = cfg.edgeHi then cfg.edgeHi + 1 - cfg.symbolLen else freeCount cfg k + 1 := by
  obtain ⟨-, -, -, -, -, -, -, -, hsym1, hsym, -⟩ := wf_facts hwf
  obtain h | rfl | h := lt_trichotomy k cfg.edgeHi
  · rw [freeCount_of_le h, freeCount_of_le h.le, if_neg h.ne]
  · rw [freeCount_of_lt (Nat.lt_succ_self _), freeCount_of_le le_rfl, if_pos rfl, Nat.sub_self, Nat.zero_mod,
      Nat.add_zero]
  · have hsub : k + 1 - (cfg.edgeHi + 1) = k - (cfg.edgeHi + 1) + 1 := by omega
    have hmod : (k - (cfg.edgeHi + 1)) % cfg.symbolLen + 1 ≤ cfg.symbolLen := Nat.mod_lt _ hsym1
    rw [freeCount_of_lt (h.trans (Nat.lt_succ_self _)), freeCount_of_lt h, hsub, ← Nat.mod_add_mod]
    obtain hlast | hmore := hmod.eq_or_lt
    · rw [hlast, Nat.mod_self, Nat.add_zero, if_pos (by omega)]
    · rw [Nat.mod_eq_of_lt hmore, if_neg (by omega), Nat.add_assoc]

/-- The RX registers `k` sampling ticks after `rx`, where `rx` tracks a tone at counter 0 and no sign has disagreed. -/
structure FreeRunFrom (cfg : Config) (rx : RxRegs) (k : Nat) (rx' : RxRegs) : Prop where
  sync : rx'.sync = rx.sync
  cnt  : rx'.cnt.toInt = freeCount cfg k
  rxb  : cfg.bitCenter ≤ k → rx'.rxb = xor (decide (rx.sync = .trackingMark)) cfg.rxInvert

/-- A sign that agrees with the tracked tone is non-negative exactly in `TrackingMark`. -/
theorem nonneg_iff_of_agrees {sync : Sync} (hs : sync ≠ .idle) {v : Int} (h : v < 0 ↔ sync = .trackingSpace) :
    0 ≤ v ↔ sync = .trackingMark := by
  rw [← not_lt, h]
  cases sync with
  | idle => exact absurd rfl hs
  | trackingMark => simp
  | trackingSpace => simp

/-- A tick whose sign agrees with the tracked tone continues the free run. -/
theorem FreeRunFrom.tick {rx : RxRegs} {k : Nat} {i : Instr} {t u : State} (hi : runsSample i = true)
    (hs : rx.sync ≠ .idle) (h : FreeRunFrom t.cfg rx k t.rx) (hu : exec i t = .next u)
    (hagree : u.rx.s2.toInt < 0 ↔ rx.sync = .trackingSpace) : FreeRunFrom t.cfg rx (k + 1) u.rx := by
  obtain ⟨hwf, -⟩ := exec_next hu
  obtain ⟨-, -, -, -, -, hcentre, hwin, -, -, hsym, -⟩ := wf_facts hwf
  have hst : t.rx.sync ≠ .idle := h.sync ▸ hs
  have hcnt := h.cnt
  have hmax := freeCount_le_edgeHi hwf k
  have hsucc := freeCount_succ hwf k
  have hrxb : t.cfg.bitCenter ≤ k + 1 → u.rx.rxb = xor (decide (rx.sync = .trackingMark)) t.cfg.rxInvert := by
    intro hk
    by_cases hn : t.rx.cnt.toInt + 1 = t.cfg.bitCenter
    · rw [exec_tracking_rxb_centre hi hst hu hn, decide_eq_decide.mpr (nonneg_iff_of_agrees hs hagree)]
    · rw [exec_tracking_rxb_off_centre hi hst hu hn]
      refine h.rxb (not_lt.mp fun hlt => hn ?_)
      rw [hcnt, freeCount_of_le (by omega)]
      omega
  obtain ⟨hgt, hsync, hcnt'⟩ | ⟨-, -, hmis, -⟩ | ⟨hle, -, hsync, hcnt'⟩ := exec_tracking_cases hi hst hu
  · rw [if_pos (by omega)] at hsucc
    exact ⟨hsync.trans h.sync, by omega, hrxb⟩
  · exact absurd (h.sync ▸ hagree) hmis
  · rw [if_neg (by omega)] at hsucc
    exact ⟨hsync.trans h.sync, by omega, hrxb⟩

/-- Settles O31, by induction over the ticks: each continues the free run, whose counter is `freeCount`. -/
theorem freeRunningCounterCycles : Obligations.FreeRunningCounterCycles := by
  unfold Obligations.FreeRunningCounterCycles
  intro s is hwf hs hcnt hr hagree
  obtain ⟨-, -, -, -, hcentre, -⟩ := wf_facts hwf
  obtain ⟨t, ht, hsync, hcount, hrxb⟩ := execAll_tick_induction (P := FreeRunFrom s.cfg s.rx) hwf hr
    ⟨rfl, by rw [hcnt, freeCount_of_le (Nat.zero_le _)]; rfl, by omega⟩
    (fun p i t u hp ht hi hu hpu ih => by
      have hpos : 0 < sampleCount (p ++ [i]) := by rw [sampleCount_snoc, if_pos hi]; omega
      rw [← execAll_cfg ht hwf] at ih ⊢
      exact ih.tick hi hs hu (hagree (p ++ [i]) u hp hpos hpu))
  refine ⟨t, ht, hsync, fun hle => ?_, fun hlt => ?_, hrxb⟩
  · rw [hcount, freeCount_of_le hle]
  · rw [hcount, freeCount_of_lt hlt]

/-! From reset (R137(d), (e)) -/

/-- RESET leaves the reset values in the RX registers (R182). -/
theorem exec_reset_rx {i : Instr} (hi : isReset i = true) {s t : State} (h : exec i s = .next t) : t.rx = resetRx := by
  obtain ⟨-, rfl⟩ := exec_next h
  cases i with
  | reset => rfl
  | nop | sample _ | carrier _ | sampleCarrier _ _ => cases hi

/-- Settles O32, by induction over the operations: without a negative sign each leaves `Idle` as it was, or resets to
it. -/
theorem idleWhileNoNegativeSign : Obligations.IdleWhileNoNegativeSign := by
  unfold Obligations.IdleWhileNoNegativeSign
  intro cfg words is hwf hpos
  refine execAll_prefix_induction (P := fun _ t => t.rx.sync = .idle ∧ t.rx.cnt = 0 ∧ t.rx.rxb = true)
    (s := State.resetOf cfg words) hwf is ⟨rfl, rfl, rfl⟩ fun p i t u hp ht hu hpu ih => ?_
  obtain ⟨hsync, hcnt, hrxb⟩ := ih
  cases hi : runsSample i with
  | true =>
    obtain ⟨hsync', hcnt', hrxb'⟩ := exec_idle_of_nonneg hi hsync hu (hpos _ u hp hpu)
    exact ⟨hsync', hcnt'.trans hcnt, hrxb'.trans hrxb⟩
  | false =>
    cases hr : isReset i with
    | true => rw [exec_reset_rx hr hu]; exact ⟨rfl, rfl, rfl⟩
    | false => rw [exec_keeps_rx hi hr hu]; exact ⟨hsync, hcnt, hrxb⟩

/-- Operations that run no sampling tick leave the RX registers at their reset values. -/
theorem execAll_of_no_sample {cfg : Config} (hwf : cfg.wf = true) (words : List InputWord) {is : List Instr}
    (h : sampleCount is = 0) : ∃ t, execAll is (State.resetOf cfg words) = .next t ∧ t.rx = resetRx := by
  refine execAll_prefix_induction (P := fun _ t => t.rx = resetRx) (s := State.resetOf cfg words) hwf is rfl
    fun p i t u hp _ hu _ ih => ?_
  have hi : runsSample i = false := by
    simpa using List.countP_eq_zero.mp h i (hp.subset (by simp))
  cases hr : isReset i with
  | true => exact exec_reset_rx hr hu
  | false => exact (exec_keeps_rx hi hr hu).trans ih

/-- A section at 0 with input 0 stays at 0 (R104). -/
theorem filterSection_zero (k : Nat) : filterSection k 0 0 = 0 := by
  rw [filterSection_exact (by norm_num) (by norm_num), sub_self, asr_of_lt le_rfl (by positivity), add_zero]

/-- On the reset values every sample leaves the filter at 0: `LAST` is 0, so the mixed value is (R103, R137(e)). -/
theorem filters_of_resetRx (cfg : Config) (a : AdcWord) :
    filter0 cfg a resetRx = 0 ∧ filter1 cfg a resetRx = 0 ∧ filter2 cfg a resetRx = 0 := by
  have hmix : mix cfg a resetRx = 0 := mix_of_zero_factor (.inr rfl)
  have h0 : filter0 cfg a resetRx = 0 := by rw [filter0, hmix]; exact filterSection_zero cfg.k0
  have h1 : filter1 cfg a resetRx = 0 := by rw [filter1, h0]; exact filterSection_zero cfg.k1
  have h2 : filter2 cfg a resetRx = 0 := by rw [filter2, h1]; exact filterSection_zero cfg.k2
  exact ⟨h0, h1, h2⟩

/-- Settles O33: the first tick meets the reset values, where the filter stays at 0, which is no negative sign. -/
theorem firstSampleIsNotNegative : Obligations.FirstSampleIsNotNegative := by
  unfold Obligations.FirstSampleIsNotNegative
  intro cfg words before i hwf hcount hi
  obtain ⟨t, ht, hreset⟩ := execAll_of_no_sample hwf words hcount
  have hu := exec_of_wf i (s := t) (by rwa [execAll_cfg ht hwf])
  obtain ⟨a, hrx⟩ := exec_runsSample_rx hi hu
  obtain ⟨h0, h1, h2⟩ := filters_of_resetRx t.cfg a
  refine ⟨_, (execAll_snoc ht).trans hu, ?_⟩
  rw [hrx, hreset, sampleTick_s0, sampleTick_s1, sampleTick_s2, sampleTick_sync, sampleTick_rxb, h0, h1, h2]
  exact ⟨rfl, rfl, rfl, rfl, rfl⟩

end Sys2Proof.Machine

/-! Tone synthesizer (42_tone_synth.md): the carrier tick, its phase and its duty. -/

namespace Sys2Proof.Machine

/-! The operations that run the carrier tick (R71, R160) -/

/-- What an operation that carries the bit `b` does to the TX registers when it completes. -/
theorem exec_carrying_tx {i : Instr} {b : Bool} (hi : i = .carrier b ∨ ∃ a, i = .sampleCarrier a b) {s t : State}
    (h : exec i s = .next t) : t.tx = carrierTick s.cfg b s.tx := by
  obtain ⟨-, rfl⟩ := exec_next h
  obtain rfl | ⟨a, rfl⟩ := hi
  · rfl
  · rfl

/-- An operation that neither carries nor resets leaves the TX registers. -/
theorem exec_keeps_tx {i : Instr} (hi : i = .nop ∨ ∃ a, i = .sample a) {s t : State} (h : exec i s = .next t) :
    t.tx = s.tx := by
  obtain ⟨-, rfl⟩ := exec_next h
  obtain rfl | ⟨a, rfl⟩ := hi
  · rfl
  · rfl

/-! The phase (R161, R162) -/

/-- The next phase is a sum of words: it wraps modulo 2^16. -/
theorem nextPhase_eq_add (cfg : Config) (b : Bool) (tx : TxRegs) :
    nextPhase cfg b tx = tx.phase + BitVec.ofNat 16 (phaseInc cfg b) := by
  rw [nextPhase, BitVec.ofNat_add, BitVec.ofNat_toNat, BitVec.setWidth_eq]

/-- Settles O35: the phase after a carrier tick is a sum with the increment, which the old phase cancels out of. -/
theorem phaseNeverJumps : Obligations.PhaseNeverJumps := by
  unfold Obligations.PhaseNeverJumps
  constructor
  · intro s t i b hi ht
    rw [exec_carrying_tx hi ht, carrierTick_phase, nextPhase_eq_add, add_sub_cancel_left]
    rfl
  · intro s t i hi ht
    rw [exec_keeps_tx hi ht]

theorem resetTx_phase : resetTx.phase = 0 := rfl

/-- With the bit held, `k` carrier ticks add `k` increments (R165(a)). -/
theorem execAll_held_carrier (b : Bool) (k : Nat) {s : State} (hwf : s.cfg.wf = true) :
    ∃ t, execAll (List.replicate k (.carrier b)) s = .next t ∧ t.cfg = s.cfg ∧
      t.tx.phase = s.tx.phase + BitVec.ofNat 16 (k * phaseInc s.cfg b) := by
  induction k with
  | zero => exact ⟨s, rfl, rfl, by simp⟩
  | succ k ih =>
    obtain ⟨t, ht, hcfg, hphase⟩ := ih
    have hu := exec_of_wf (.carrier b) (s := t) (by rwa [hcfg])
    rw [List.replicate_succ', execAll_snoc ht]
    refine ⟨_, hu, hcfg, ?_⟩
    rw [exec_carrying_tx (.inl rfl) hu, carrierTick_phase, nextPhase_eq_add, hphase, hcfg, add_assoc,
      ← BitVec.ofNat_add, ← Nat.succ_mul]

/-- `n / gcd(a, n)` copies of `a` make their least common multiple. -/
theorem dvd_div_gcd_mul (a n : Nat) : n ∣ n / Nat.gcd a n * a := by
  rw [Nat.div_mul_right_comm (Nat.gcd_dvd_right a n), mul_comm]
  exact Nat.dvd_lcm_right a n

/-- Settles O36: from phase 0 the `k` ticks leave `k` increments, and those of one period add a multiple of 2^16. -/
theorem phaseAfterHeldBitIsPeriodic : Obligations.PhaseAfterHeldBitIsPeriodic := by
  unfold Obligations.PhaseAfterHeldBitIsPeriodic
  intro cfg words b k hwf
  obtain ⟨t, ht, hcfg, hphase⟩ := execAll_held_carrier b k (s := State.resetOf cfg words) hwf
  obtain ⟨u, hu, -, hphase'⟩ :=
    execAll_held_carrier b (2 ^ 16 / Nat.gcd (phaseInc cfg b) (2 ^ 16)) (s := t) (by rwa [hcfg])
  refine ⟨t, u, ht, ?_, hu, ?_⟩
  · rw [hphase, resetOf_tx, resetOf_cfg, resetTx_phase, zero_add, BitVec.toNat_ofNat]
  · have hperiod : BitVec.ofNat 16 (2 ^ 16 / Nat.gcd (phaseInc cfg b) (2 ^ 16) * phaseInc cfg b) = 0 :=
      BitVec.eq_of_toNat_eq (Nat.mod_eq_zero_of_dvd (dvd_div_gcd_mul _ _))
    rw [hphase', hcfg, resetOf_cfg, hperiod, add_zero]

/-! The duty (R163, R164) -/

/-- The duty after a carrier tick is the ROM entry at the top eight bits of the new phase, divided by 4. -/
theorem carrierTick_pwm_toNat (cfg : Config) (b : Bool) (tx : TxRegs) :
    (carrierTick cfg b tx).pwm.toNat =
      (romRead cfg.sine ((carrierTick cfg b tx).phase.extractLsb' 8 8)).toNat / 4 := by
  rw [carrierTick_pwm, attenuate_toNat, sineIndex_eq_extract, carrierTick_phase]

/-- Settles O37: the duty is at most 63, so its bits from 6 up are 0. -/
theorem dutyStaysBelowSixtyFour : Obligations.DutyStaysBelowSixtyFour := by
  unfold Obligations.DutyStaysBelowSixtyFour
  intro s t i b hi ht
  rw [exec_carrying_tx hi ht]
  have hle := carrierTick_pwm_le s.cfg b s.tx
  exact ⟨carrierTick_pwm_toNat s.cfg b s.tx, hle, Nat.testBit_lt_two_pow (by omega), Nat.testBit_lt_two_pow (by omega)⟩

/-- Settles O34: the completed state is `stateAfter`, whose TX registers the carrier tick wrote. -/
theorem carrierRunsTheToneTick : Obligations.CarrierRunsTheToneTick := by
  unfold Obligations.CarrierRunsTheToneTick
  constructor
  · intro s b hwf
    exact ⟨stateAfter (.carrier b) s, exec_of_wf _ hwf, BitVec.toNat_ofNat _ 16, carrierTick_pwm_toNat s.cfg b s.tx,
      rfl, rfl, rfl, rfl, fun _ => rfl⟩
  · intro adcW w hop
    rw [and_seven] at hop
    rw [decodeWord_of_carrier_strobe hop, txBitField_eq]

end Sys2Proof.Machine

/-! NOP, SAMPLE_CARRIER and RESET (43_control_ops.md). -/

namespace Sys2Proof.Machine

/-! NOP (R180) -/

theorem stateAfter_nop (s : State) : stateAfter .nop s = s := rfl

/-- Settles O15: NOP commits the state it began in, and a word of op 000 has no strobe. -/
theorem nopKeepsEverything : Obligations.NopKeepsEverything := by
  unfold Obligations.NopKeepsEverything
  constructor
  · intro s hwf
    rw [exec_of_wf _ hwf, stateAfter_nop]
  · intro adcW w hop
    rw [and_seven] at hop
    exact decodeWord_of_no_strobe hop

/-! RESET (R182) -/

/-- RESET discards what any operation before it wrote: it reads no register. -/
theorem stateAfter_reset_absorbs (i : Instr) (s : State) : stateAfter .reset (stateAfter i s) = stateAfter .reset s :=
  rfl

/-- RESET held for one or more cycles is RESET once, by induction on the cycles after the first. -/
theorem execAll_held_reset (k : Nat) {s : State} (hwf : s.cfg.wf = true) :
    execAll (List.replicate (k + 1) .reset) s = .next (stateAfter .reset s) := by
  induction k with
  | zero => exact execAll_cons hwf
  | succ k ih =>
    have hagain : exec .reset (stateAfter .reset s) = .next (stateAfter .reset (stateAfter .reset s)) :=
      exec_of_wf _ hwf
    rw [List.replicate_succ', execAll_snoc ih, hagain, stateAfter_reset_absorbs]

/-- The ports after RESET (R76, R182). -/
theorem outPorts_after_reset (s : State) :
    outPorts (stateAfter .reset s) = { rxBit := true, rxPulse := false, pwmDuty := 32, syncState := 0b00#2 } :=
  rfl

/-- Settles O16: RESET leaves `resetRx` and `resetTx` whatever ran before it, so holding it changes nothing more. -/
theorem resetWritesTheResetValues : Obligations.ResetWritesTheResetValues := by
  unfold Obligations.ResetWritesTheResetValues
  constructor
  · intro s hwf
    exact ⟨stateAfter .reset s, exec_of_wf _ hwf, rfl, rfl, rfl, rfl, rfl, fun _ => rfl, outPorts_after_reset s,
      fun k => execAll_held_reset k hwf⟩
  · intro adcW w hrst
    exact decodeWord_of_rst ((and_four w).mp hrst)

/-! SAMPLE_CARRIER (R181) -/

/-- CARRIER after SAMPLE starts from the TX registers SAMPLE left alone. -/
theorem stateAfter_carrier_sample (a : AdcWord) (b : Bool) (s : State) :
    stateAfter (.carrier b) (stateAfter (.sample a) s) = stateAfter (.sampleCarrier a b) s := rfl

/-- SAMPLE after CARRIER starts from the RX registers CARRIER left alone. -/
theorem stateAfter_sample_carrier (a : AdcWord) (b : Bool) (s : State) :
    stateAfter (.sample a) (stateAfter (.carrier b) s) = stateAfter (.sampleCarrier a b) s := rfl

/-- Two operations that complete, one after the other. -/
theorem execAll_pair (i j : Instr) {s : State} (hwf : s.cfg.wf = true) :
    execAll [i, j] s = .next (stateAfter j (stateAfter i s)) :=
  execAll_of_wf [i, j] hwf

/-- Settles O38: neither tick writes what the other reads, so both orders leave what the two ticks at once leave. -/
theorem sampleCarrierIsBothInEitherOrder : Obligations.SampleCarrierIsBothInEitherOrder := by
  unfold Obligations.SampleCarrierIsBothInEitherOrder
  constructor
  · intro s a b hwf
    have hSampleFirst : execAll [.sample a, .carrier b] s = .next (stateAfter (.sampleCarrier a b) s) := by
      rw [execAll_pair _ _ hwf, stateAfter_carrier_sample]
    have hCarrierFirst : execAll [.carrier b, .sample a] s = .next (stateAfter (.sampleCarrier a b) s) := by
      rw [execAll_pair _ _ hwf, stateAfter_sample_carrier]
    exact ⟨stateAfter (.sampleCarrier a b) s, stateAfter (.sample a) s, stateAfter (.carrier b) s, exec_of_wf _ hwf,
      exec_of_wf _ hwf, exec_of_wf _ hwf, rfl, rfl, rfl, rfl, rfl, fun _ => rfl, hSampleFirst, hCarrierFirst⟩
  · intro adcW w hop
    rw [and_seven] at hop
    rw [decodeWord_of_both_strobes hop, txBitField_eq]
    rfl

end Sys2Proof.Machine

/-! Exceptions (60_exceptions.md): there are none, and every cycle completes. -/

namespace Sys2Proof.Machine

/-- Settles O11: an operation ends in one commit and a step is one operation, so the commit's check of the
configuration is all that could refuse (R200). -/
theorem everyCycleCompletes : Obligations.EveryCycleCompletes := by
  unfold Obligations.EveryCycleCompletes
  intro s hwf
  constructor
  · intro i
    exact ⟨stateAfter i s, exec_of_wf i hwf⟩
  · exact ⟨stateAfter (wordInstr s.cfg (currentWord s)) (consumeWord s), step_of_wf hwf⟩

end Sys2Proof.Machine

/-! Reset and hazards (70_reset_and_hazards.md): a held word, and the configuration under a step. -/

namespace Sys2Proof

/-- The decoder reads no line above the port's: the strobes and both operand fields lie in the low `ADC_W + 4` bits
(R70). -/
theorem decodeWord_mod_port (adcW w : Nat) : decodeWord adcW (w % 2 ^ (adcW + 4)) = decodeWord adcW w := by
  refine ignoredFieldsHaveNoEffect adcW _ w ?_ (fun _ _ => ?_) (fun _ _ => ?_)
  · rw [show 2 ^ (adcW + 4) = 2 ^ adcW * 2 * 8 by ring, Nat.mod_mul_left_mod]
  · rw [show 2 ^ (adcW + 4) = 2 ^ adcW * 2 * 8 by ring, Nat.mod_mul_left_div_self, Nat.mod_mul_left_mod]
  · rw [show 2 ^ (adcW + 4) = 2 ^ adcW * 16 by ring, Nat.mod_mul_left_div_self, Nat.mod_mod]

end Sys2Proof

namespace Sys2Proof.Machine

/-! A held word (R234) -/

/-- The operation a driven word selects is the one its own number decodes to. -/
theorem wordInstr_eq_decodeWord (cfg : Config) (w : InputWord) : wordInstr cfg w = decodeWord cfg.adcW w.toNat :=
  decodeWord_mod_port cfg.adcW w.toNat

/-- Settles O9: a held word is a schedule of copies of one word, and each copy selects the same operation. -/
theorem heldStrobeRunsOncePerCycle : Obligations.HeldStrobeRunsOncePerCycle := by
  unfold Obligations.HeldStrobeRunsOncePerCycle
  intro k s w rest hwf hin
  have hrun := runCycles_scheduled (List.replicate k w) hwf hin
  rwa [List.length_replicate, List.map_replicate, wordInstr_eq_decodeWord] at hrun

/-! The configuration is fixed (R61, R237) -/

/-- A step that completes leaves the configuration, the ROM in it. -/
theorem step_keeps_cfg {s t : State} (h : step s = .next t) : t.cfg = s.cfg := by
  obtain ⟨-, rfl⟩ := step_next h
  rw [stateAfter_cfg, consumeWord_cfg]

/-- Settles O12: the ROM is part of the configuration, which a step leaves. -/
theorem noStepChangesTheConfiguration : Obligations.NoStepChangesTheConfiguration := by
  unfold Obligations.NoStepChangesTheConfiguration
  intro s t h
  exact ⟨step_keeps_cfg h, fun idx => by rw [step_keeps_cfg h]⟩

end Sys2Proof.Machine
